-- ==== Sys2Proof/Word.lean ====
section
/-! DEFINITION. The widths of the machine: 32-bit words, bytes, 5-bit register indices.
Rules R6, R9, R21 (spec/00_scope.md, spec/10_state.md). Addition and subtraction of words are
those of `BitVec 32`, which are modulo 2^32 as R9 and R142 ask. -/

namespace Sys2Proof

/-- A machine word: the contents of a register, of the pc, an address, an instruction word.
R6 (`XLEN = 32`, `ILEN = 32`), R9. -/
abbrev Word := BitVec 32

/-- One byte of the RAM. R32. -/
abbrev Byte := BitVec 8

/-- The index of a general register: "A register index is a 5-bit number". R21, R71. -/
abbrev Reg := BitVec 5

end Sys2Proof
end

