-- ==== Sys2Proof/Config.lean ====
section
/-! DEFINITION. The implementation parameters of R6 (spec/00_scope.md). The spec leaves two of them
OPEN: `RAM_BASE`, whose legal values are the type `RamBase`, and `IMAGE`, any list of bytes. A machine
takes both as arguments when it is constructed (`Machine.State.construct`, R190). No data value is
left open by the spec (spec/93_implementation_defined.md, Part 1), so there is no free value here. -/

namespace Sys2Proof.Config

/-- `XLEN`: width of a register, of the pc and of an address. R6. -/
def xlen : Nat := 32

/-- `ILEN`: the only instruction length, in bits. R6, R70. -/
def ilen : Nat := 32

/-- `NREGS`: number of general registers. R6, R21. -/
def nregs : Nat := 32

/-- `MEM_SIZE`: capacity of the RAM in bytes, "4 KiB in the current configuration", fixed for this
hardware by decision D21. R6, R32. -/
abbrev memSize : Nat := 4096

/-- The legal values of the OPEN parameter `RAM_BASE`: natural numbers with
`RAM_BASE + MEM_SIZE <= 2^32`. R6, R41, decision D1. -/
abbrev RamBase : Type := Fin (2 ^ 32 - memSize + 1)

/-- `RESET_VECTOR = RAM_BASE`, as a word. R192, decision D2. -/
def resetVector (base : RamBase) : Word := BitVec.ofNat 32 base.val

/-- DESIGN CHOICE (log entry 1, unsafe): the `RAM_BASE` of the one machine that the fixed name
`Machine.State.reset` stands for. The spec gives `RAM_BASE` no number; `Machine.State.construct` is the
reset state for EVERY value, and nothing else in the model mentions this constant. -/
def resetBase : RamBase := 0

end Sys2Proof.Config
end

