-- ==== Sys2Proof/Syntax.lean ====
section
/-! DEFINITION. The instruction set: one constructor for each row of spec/opcode_table.json
(R2, R81), with operands as R86 gives them: 5-bit register indices and an immediate that is already
sign-extended to a word. -/

namespace Sys2Proof

/-- The eleven instructions of R81 and the opcode-zero sentinel of R78. -/
inductive Instr where
  /-- `lb rd, imm(rs1)`. R121. -/
  | lb (rd rs1 : Reg) (imm : Word)
  /-- `lh rd, imm(rs1)`. R122. -/
  | lh (rd rs1 : Reg) (imm : Word)
  /-- `lw rd, imm(rs1)`. R123. -/
  | lw (rd rs1 : Reg) (imm : Word)
  /-- `lbu rd, imm(rs1)`. R124. -/
  | lbu (rd rs1 : Reg) (imm : Word)
  /-- `lhu rd, imm(rs1)`. R125. -/
  | lhu (rd rs1 : Reg) (imm : Word)
  /-- `addi rd, rs1, imm`. R130. -/
  | addi (rd rs1 : Reg) (imm : Word)
  /-- `add rd, rs1, rs2`. R140. -/
  | add (rd rs1 rs2 : Reg)
  /-- `sub rd, rs1, rs2`. R141. -/
  | sub (rd rs1 rs2 : Reg)
  /-- `sb rs2, imm(rs1)`: `rs1` is the base, `rs2` the value. R151, R74. -/
  | sb (rs1 rs2 : Reg) (imm : Word)
  /-- `sh rs2, imm(rs1)`. R152. -/
  | sh (rs1 rs2 : Reg) (imm : Word)
  /-- `sw rs2, imm(rs1)`. R153. -/
  | sw (rs1 rs2 : Reg) (imm : Word)
  /-- The opcode-zero sentinel: any word whose low 7 bits are zero. `rest` is bits [31:7], which the
  hardware ignores; they are kept so that no bit of a word is lost. R78, R107. -/
  | opcodeZero (rest : BitVec 25)
deriving DecidableEq, Repr

end Sys2Proof
end

