-- ==== Sys2Proof/WellFormed.lean ====
section
/-! DEFINITION. Which terms of `Instr` stand for an encodable instruction: the immediate of an I- or
S-type instruction is a sign-extended 12-bit value (R73 to R76, R86). Register indices need no check:
`Reg` has 5 bits (R21). -/

namespace Sys2Proof

/-- The word is the sign extension of a 12-bit field: as a signed number it lies in -2048 to 2047.
R75, R76. -/
def fitsImm12 (imm : Word) : Bool := decide (-2048 ≤ imm.toInt ∧ imm.toInt ≤ 2047)

/-- The instruction can be encoded. R73 to R76, R86. -/
def Instr.wellFormed : Instr → Bool
  | .lb _ _ imm => fitsImm12 imm
  | .lh _ _ imm => fitsImm12 imm
  | .lw _ _ imm => fitsImm12 imm
  | .lbu _ _ imm => fitsImm12 imm
  | .lhu _ _ imm => fitsImm12 imm
  | .addi _ _ imm => fitsImm12 imm
  | .add _ _ _ => true
  | .sub _ _ _ => true
  | .sb _ _ imm => fitsImm12 imm
  | .sh _ _ imm => fitsImm12 imm
  | .sw _ _ imm => fitsImm12 imm
  | .opcodeZero _ => true

end Sys2Proof
end

