-- ==== Sys2Proof/Decode.lean ====
section
/-! DEFINITION. Instruction encoding (spec/30_encoding.md): bit fields, the first-level decoder that
selects a format from the opcode (R77 to R79), the second-level dispatch by funct3 and funct7 (R81,
R82), the two joined, the encoder, and the opcode table's match and mask words. -/

namespace Sys2Proof

/-! ## Sign and zero extension, byte order -/

/-- `sext_32` of R10: sign extension to a word. -/
def sext32 {w : Nat} (v : BitVec w) : Word := v.signExtend 32

/-- `zext_32` of R10: zero extension to a word. -/
def zext32 {w : Nat} (v : BitVec w) : Word := v.setWidth 32

/-- The low `n` bytes of `v`, lowest first. R44, R45. -/
def leBytes : Nat → Nat → List Byte
  | 0, _ => []
  | n + 1, v => BitVec.ofNat 8 v :: leBytes n (v / 256)

/-- The number that a list of bytes makes, the first byte least significant. R43, R45. -/
def leValue : List Byte → Nat
  | [] => 0
  | b :: bs => b.toNat + 256 * leValue bs

/-! ## Fields (R71) -/

/-- `raw[6:0]`. R71. -/
def opcodeOf (raw : Word) : BitVec 7 := raw.extractLsb' 0 7
/-- `raw[11:7]`. R71. -/
def rdOf (raw : Word) : Reg := raw.extractLsb' 7 5
/-- `raw[14:12]`. R71. -/
def funct3Of (raw : Word) : BitVec 3 := raw.extractLsb' 12 3
/-- `raw[19:15]`. R71. -/
def rs1Of (raw : Word) : Reg := raw.extractLsb' 15 5
/-- `raw[24:20]`. R71. -/
def rs2Of (raw : Word) : Reg := raw.extractLsb' 20 5
/-- `raw[31:25]`. R71. -/
def funct7Of (raw : Word) : BitVec 7 := raw.extractLsb' 25 7
/-- The I-type immediate, `sext_32(raw[31:20])`. R75. -/
def immIOf (raw : Word) : Word := sext32 (raw.extractLsb' 20 12)
/-- The S-type immediate, `sext_32(raw[31:25] ++ raw[11:7])`. R76, conflict C6. -/
def immSOf (raw : Word) : Word := sext32 (raw.extractLsb' 25 7 ++ raw.extractLsb' 7 5)
/-- `raw[31:7]`, which the opcode-zero sentinel ignores. R78. -/
def restOf (raw : Word) : BitVec 25 := raw.extractLsb' 7 25

/-! ## First level: the decoder (R77 to R79, R85, R86) -/

/-- What R86 calls the `Instruction`: the decoder's output, a format with its fields. No opcode
produces a B-, U- or J-type value (R80, conflict C3), so there is no constructor for them. -/
inductive Format where
  /-- R-type, R72. -/
  | rType (opcode : BitVec 7) (rd rs1 rs2 : Reg) (funct3 : BitVec 3) (funct7 : BitVec 7)
  /-- I-type, R73. -/
  | iType (opcode : BitVec 7) (rd rs1 : Reg) (imm : Word) (funct3 : BitVec 3)
  /-- S-type, R74: `rs1` is the base, `rs2` the value. -/
  | sType (opcode : BitVec 7) (rs1 rs2 : Reg) (imm : Word) (funct3 : BitVec 3)
deriving DecidableEq, Repr

/-- The three results of the decoder, R85. -/
inductive Decoded where
  | format (f : Format)
  | opcodeZero
  | illegalOpcode (raw : Word)
deriving DecidableEq, Repr

/-- The decoder: the format is selected from the opcode alone. R77, R78, R79. -/
def decodeFormat (raw : Word) : Decoded :=
  if opcodeOf raw = 0x00#7 then .opcodeZero
  else if opcodeOf raw = 0x03#7 ∨ opcodeOf raw = 0x13#7 then
    .format (.iType (opcodeOf raw) (rdOf raw) (rs1Of raw) (immIOf raw) (funct3Of raw))
  else if opcodeOf raw = 0x23#7 then
    .format (.sType (opcodeOf raw) (rs1Of raw) (rs2Of raw) (immSOf raw) (funct3Of raw))
  else if opcodeOf raw = 0x33#7 then
    .format (.rType (opcodeOf raw) (rdOf raw) (rs1Of raw) (rs2Of raw) (funct3Of raw) (funct7Of raw))
  else .illegalOpcode raw

/-- The field `v` in the bits of a word from bit `lo` up, the other bits zero. R71. -/
def placeAt {w : Nat} (lo : Nat) (v : BitVec w) : Word := v.setWidth 32 <<< lo

/-- The word that a decoded format came from: "`raw` can be rebuilt from the instruction value". R86,
layouts R72 to R74. -/
def Format.word : Format → Word
  | .rType opcode rd rs1 rs2 funct3 funct7 =>
    placeAt 25 funct7 ||| placeAt 20 rs2 ||| placeAt 15 rs1 ||| placeAt 12 funct3 ||| placeAt 7 rd |||
      placeAt 0 opcode
  | .iType opcode rd rs1 imm funct3 =>
    placeAt 20 (imm.extractLsb' 0 12) ||| placeAt 15 rs1 ||| placeAt 12 funct3 ||| placeAt 7 rd |||
      placeAt 0 opcode
  | .sType opcode rs1 rs2 imm funct3 =>
    placeAt 25 (imm.extractLsb' 5 7) ||| placeAt 20 rs2 ||| placeAt 15 rs1 ||| placeAt 12 funct3 |||
      placeAt 7 (imm.extractLsb' 0 5) ||| placeAt 0 opcode

/-! ## Second level: dispatch (R81, R82) -/

/-- The opcode `0x03` rows of R81; `none` is an illegal function code, R82. -/
def selectLoad (rd rs1 : Reg) (imm : Word) (funct3 : BitVec 3) : Option Instr :=
  if funct3 = 0#3 then some (.lb rd rs1 imm)
  else if funct3 = 1#3 then some (.lh rd rs1 imm)
  else if funct3 = 2#3 then some (.lw rd rs1 imm)
  else if funct3 = 4#3 then some (.lbu rd rs1 imm)
  else if funct3 = 5#3 then some (.lhu rd rs1 imm)
  else none

/-- The opcode `0x13` row of R81; R131. -/
def selectOpImm (rd rs1 : Reg) (imm : Word) (funct3 : BitVec 3) : Option Instr :=
  if funct3 = 0#3 then some (.addi rd rs1 imm) else none

/-- The opcode `0x23` rows of R81; R150. -/
def selectStore (rs1 rs2 : Reg) (imm : Word) (funct3 : BitVec 3) : Option Instr :=
  if funct3 = 0#3 then some (.sb rs1 rs2 imm)
  else if funct3 = 1#3 then some (.sh rs1 rs2 imm)
  else if funct3 = 2#3 then some (.sw rs1 rs2 imm)
  else none

/-- The opcode `0x33` rows of R81: all seven bits of funct7 are compared. R143. -/
def selectOp (rd rs1 rs2 : Reg) (funct3 : BitVec 3) (funct7 : BitVec 7) : Option Instr :=
  if funct3 = 0#3 ∧ funct7 = 0x00#7 then some (.add rd rs1 rs2)
  else if funct3 = 0#3 ∧ funct7 = 0x20#7 then some (.sub rd rs1 rs2)
  else none

/-- "Dispatch by nested tag matching (opcode → then funct3/funct7)": the instruction of a decoded
format, or `none` where no row of R81 matches. R81, R106. -/
def select : Format → Option Instr
  | .rType opcode rd rs1 rs2 funct3 funct7 =>
    if opcode = 0x33#7 then selectOp rd rs1 rs2 funct3 funct7 else none
  | .iType opcode rd rs1 imm funct3 =>
    if opcode = 0x03#7 then selectLoad rd rs1 imm funct3
    else if opcode = 0x13#7 then selectOpImm rd rs1 imm funct3
    else none
  | .sType opcode rs1 rs2 imm funct3 =>
    if opcode = 0x23#7 then selectStore rs1 rs2 imm funct3 else none

/-! ## The two levels joined -/

/-- Why a word is not an instruction, each with the word. -/
inductive Reject where
  /-- The opcode is outside the supported set and not zero; found in the decode phase. R79. -/
  | illegalOpcode (raw : Word)
  /-- The opcode is supported and no row of R81 matches; found in the execute phase. R82. -/
  | illegalInstruction (raw : Word)
deriving DecidableEq, Repr

/-- The instruction that a word stands for, or the reason it stands for none. Total on the 2^32 words
(R83, R85). The opcode-zero sentinel is a row of the opcode table and so a term of `Instr`. -/
def decode (raw : Word) : Except Reject Instr :=
  match decodeFormat raw with
  | .opcodeZero => .ok (.opcodeZero (restOf raw))
  | .illegalOpcode r => .error (.illegalOpcode r)
  | .format f =>
    match select f with
    | some i => .ok i
    | none => .error (.illegalInstruction raw)

/-- The instruction read from a row of spec/opcode_table.json whose bits are `w`, bit 0 the least
significant of the first byte, the bits from `nbits` on zero: the word is laid out as the hardware
stores it (four bytes, lowest first, R45) and read back as a fetch reads it (R53). -/
def decodeTableWord (nbits w : Nat) : Option Instr :=
  (decode (BitVec.ofNat 32 (leValue (leBytes 4 (w % 2 ^ nbits))))).toOption

/-! ## The encoder (layouts R72 to R74, codes R81) -/

/-- I-type word. R73. -/
def encodeI (opcode : BitVec 7) (funct3 : BitVec 3) (rd rs1 : Reg) (imm : Word) : Word :=
  (Format.iType opcode rd rs1 imm funct3).word

/-- S-type word. R74. -/
def encodeS (opcode : BitVec 7) (funct3 : BitVec 3) (rs1 rs2 : Reg) (imm : Word) : Word :=
  (Format.sType opcode rs1 rs2 imm funct3).word

/-- R-type word. R72. -/
def encodeR (opcode : BitVec 7) (funct3 : BitVec 3) (funct7 : BitVec 7) (rd rs1 rs2 : Reg) : Word :=
  (Format.rType opcode rd rs1 rs2 funct3 funct7).word

/-- The word of an instruction. R72 to R76, R78, R81. -/
def encode : Instr → Word
  | .lb rd rs1 imm => encodeI 0x03#7 0#3 rd rs1 imm
  | .lh rd rs1 imm => encodeI 0x03#7 1#3 rd rs1 imm
  | .lw rd rs1 imm => encodeI 0x03#7 2#3 rd rs1 imm
  | .lbu rd rs1 imm => encodeI 0x03#7 4#3 rd rs1 imm
  | .lhu rd rs1 imm => encodeI 0x03#7 5#3 rd rs1 imm
  | .addi rd rs1 imm => encodeI 0x13#7 0#3 rd rs1 imm
  | .add rd rs1 rs2 => encodeR 0x33#7 0#3 0x00#7 rd rs1 rs2
  | .sub rd rs1 rs2 => encodeR 0x33#7 0#3 0x20#7 rd rs1 rs2
  | .sb rs1 rs2 imm => encodeS 0x23#7 0#3 rs1 rs2 imm
  | .sh rs1 rs2 imm => encodeS 0x23#7 1#3 rs1 rs2 imm
  | .sw rs1 rs2 imm => encodeS 0x23#7 2#3 rs1 rs2 imm
  | .opcodeZero rest => placeAt 7 rest

/-! ## The opcode table's match and mask words (R81) -/

/-- The `mask` of the instruction's row: the bits that select the instruction. R81, R78. -/
def maskOf : Instr → Word
  | .lb _ _ _ => 0x0000707f#32
  | .lh _ _ _ => 0x0000707f#32
  | .lw _ _ _ => 0x0000707f#32
  | .lbu _ _ _ => 0x0000707f#32
  | .lhu _ _ _ => 0x0000707f#32
  | .addi _ _ _ => 0x0000707f#32
  | .add _ _ _ => 0xfe00707f#32
  | .sub _ _ _ => 0xfe00707f#32
  | .sb _ _ _ => 0x0000707f#32
  | .sh _ _ _ => 0x0000707f#32
  | .sw _ _ _ => 0x0000707f#32
  | .opcodeZero _ => 0x0000007f#32

/-- The `match` of the instruction's row: the value of the bits under the mask. R81, R78. -/
def matchOf : Instr → Word
  | .lb _ _ _ => 0x00000003#32
  | .lh _ _ _ => 0x00001003#32
  | .lw _ _ _ => 0x00002003#32
  | .lbu _ _ _ => 0x00004003#32
  | .lhu _ _ _ => 0x00005003#32
  | .addi _ _ _ => 0x00000013#32
  | .add _ _ _ => 0x00000033#32
  | .sub _ _ _ => 0x40000033#32
  | .sb _ _ _ => 0x00000023#32
  | .sh _ _ _ => 0x00001023#32
  | .sw _ _ _ => 0x00002023#32
  | .opcodeZero _ => 0x00000000#32

end Sys2Proof
end

