-- ==== Sys2Proof/Machine/Memory.lean ====
section
/-! DEFINITION. A store of bytes as plain data: a list of (address, byte) cells in one canonical form,
addresses strictly rising and no cell holding what an unlisted address reads as. The RAM of
`Machine.State` is such a store, keyed by ADDRESS: byte `k` of `MEM` is the cell at `RAM_BASE + k`
(R32, R41). Which addresses exist is decided in `Machine/Ops.lean` (R49, R50), not here. -/

namespace Sys2Proof.Machine

/-- A store of bytes. -/
abbrev Memory := List Host.Cell

/-- What an unlisted address reads as: 0, the value to which the image is padded, "`MEM[k] = 0` for
`len(IMAGE) <= k < 4096`". R191, R34. -/
def Memory.unlisted : Byte := 0#8

/-- The byte at address `a`. -/
def Memory.read : Memory → Nat → Byte
  | [], _ => Memory.unlisted
  | (k, b) :: m, a => if k = a then b else Memory.read m a

/-- The store with byte `v` at address `a`; keeps the canonical form, so writing the value of an
unlisted address takes the cell away. -/
def Memory.write : Memory → Nat → Byte → Memory
  | [], a, v => if v = Memory.unlisted then [] else [(a, v)]
  | (k, b) :: m, a, v =>
    if a < k then (if v = Memory.unlisted then (k, b) :: m else (a, v) :: (k, b) :: m)
    else if a = k then (if v = Memory.unlisted then m else (a, v) :: m)
    else (k, b) :: Memory.write m a v

/-- The `n` bytes from address `a` on, lowest first. -/
def Memory.readBytes (m : Memory) : Nat → Nat → List Byte
  | _, 0 => []
  | a, n + 1 => m.read a :: Memory.readBytes m (a + 1) n

/-- The store with the bytes written from address `a` on, lowest first. -/
def Memory.writeBytes (m : Memory) : Nat → List Byte → Memory
  | _, [] => m
  | a, b :: bs => Memory.writeBytes (m.write a b) (a + 1) bs

/-- The store that holds the listed bytes from address `a` on and nothing else. R191. -/
def Memory.ofImage : Nat → List Byte → Memory
  | _, [] => []
  | a, b :: bs => if b = Memory.unlisted then Memory.ofImage (a + 1) bs else (a, b) :: Memory.ofImage (a + 1) bs

/-- Canonical form from address `lo` on: addresses strictly rise, none below `lo`, and no cell holds
what an unlisted address reads as. -/
def Memory.wfFrom : Nat → Memory → Bool
  | _, [] => true
  | lo, (k, b) :: m => decide (lo ≤ k) && decide (b ≠ Memory.unlisted) && Memory.wfFrom (k + 1) m

/-- Canonical form. -/
def Memory.wf (m : Memory) : Bool := Memory.wfFrom 0 m

/-- Every listed address lies in `lo` to `hi - 1`. -/
def Memory.within (lo hi : Nat) (m : Memory) : Bool :=
  m.all fun c => decide (lo ≤ c.1) && decide (c.1 < hi)

end Sys2Proof.Machine
end

