-- ==== Sys2Proof/Machine/State.lean ====
section
/-! DEFINITION. The complete state of the machine, R20 (spec/10_state.md): the general registers, the
pc, the run status and the RAM, together with the construction parameter `RAM_BASE` of this machine;
its reset (R34, R190 to R192); and the reasons for which no step exists. The spec gives the machine no
flags (R29), no control and status registers (R30), no other register files (R31), no hidden state
(R33), no saved pc, cause or vector (R170), no interrupt or privilege state (R174, R175). -/

namespace Sys2Proof.Machine

/-- The phase of the step that raised a fault. R28, R161. -/
inductive Phase where
  | fetch
  | decode
  | execute
deriving DecidableEq, Repr

/-- The five fault kinds of R161, each with the value it records (`info`). -/
inductive FaultKind where
  /-- The opcode is outside the supported set; records the word. R163. -/
  | illegalOpcode (raw : Word)
  /-- No instruction has this funct3 (and funct7) under its opcode; records the word. R164. -/
  | illegalInstruction (raw : Word)
  /-- An access whose first byte lies below `RAM_BASE`; records its address. R165. -/
  | unmapped (addr : Word)
  /-- An access that reaches past the end of the RAM; records its address and its number of bytes. R166. -/
  | outOfBounds (addr : Word) (n : Nat)
  /-- A call of the memory interface with a width other than 8, 16, 32 and 64 bits; records the width.
  No step raises it. R167, R48. -/
  | unsupportedSize (width : Nat)
deriving DecidableEq, Repr

/-- The run status. R28. -/
inductive Status where
  /-- The next step may be taken. -/
  | running
  /-- A step decoded a word whose opcode field is zero; terminal. R107, R162. -/
  | halted
  /-- A step ended in a fault; terminal. R170. -/
  | faulted (phase : Phase) (kind : FaultKind)
deriving DecidableEq, Repr

/-- The state of the machine. R20. -/
structure State where
  /-- `RAM_BASE`: a constant of the machine, carried so that a claim holds for every value; no step and
  no host move changes it. R6, R35, D1. DESIGN CHOICE, log entry 2. -/
  ramBase : Config.RamBase
  /-- `x[1]` to `x[31]`, in this order; `x[0]` is the constant 0 and has no storage. R21, R22, D3. -/
  regs : Vector Word 31
  /-- The program counter. R25. -/
  pc : Word
  /-- The run status. R28. -/
  status : Status
  /-- The RAM: byte `k` of `MEM` is the byte at address `RAM_BASE + k`. R32. -/
  mem : Memory
deriving DecidableEq, Repr

/-- Why no step exists: the machine is in a terminal status (R101: "In `Halted` and `Faulted` no step is
taken and no state changes"). A step that MEETS a fault is no `Fault` here: it answers the next state,
whose `status` records it (R108, R170). -/
inductive Fault where
  /-- Raised by `step` in a state whose status is `Halted`. Safe: the machine is final and takes no
  step. R101, R162, D11. -/
  | alreadyHalted
  /-- Raised by `step` in a state whose status is `Faulted`, with the recorded phase and kind. Safe: the
  machine has stopped and takes no step. R101, R170, D10. -/
  | alreadyFaulted (phase : Phase) (kind : FaultKind)
deriving DecidableEq, Repr

/-- Why the model gives no answer. -/
inductive Refusal where
  /-- Raised by an arm of `exec` whose instruction has no meaning yet. Safe. No arm of this model
  raises it: every row of the opcode table has its meaning. -/
  | notModelled (mnemonic : String)
deriving DecidableEq, Repr

/-- What a step and an instruction's meaning answer. -/
abbrev Result := Host.Outcome State Fault Refusal

/-- Reset: the construction of the machine from its `RAM_BASE` and a byte image of any length. All
registers 0, the pc at the reset vector, status `Running`, the image zero-padded or truncated to
exactly 4096 bytes. R190, R191, R192, R34. -/
def State.construct (base : Config.RamBase) (image : List Byte) : State where
  ramBase := base
  regs := Vector.replicate 31 0#32
  pc := Config.resetVector base
  status := .running
  mem := Memory.ofImage base.val (image.take Config.memSize)

/-- The machine right after reset, constructed from the empty image ("An empty image is legal and gives
an all-zero RAM", R191); a program is loaded from outside (log entry 3). The spec gives `RAM_BASE` no
value: this is the one machine whose `RAM_BASE` is `Config.resetBase` (log entry 1). -/
def State.reset : State := State.construct Config.resetBase []

end Sys2Proof.Machine
end

