-- ==== Sys2Proof/Machine/Ops.lean ====
section
/-! DEFINITION. The operations over registers, the pc, the status and memory that every meaning is
written with: register access (R22, R24), the pc advance (R26, R104), raising a stop (R10, R170), the
memory primitives and the memory interface (R43 to R52), the fetch (R53, R103), and what the host can do
between steps (R198, R199). -/

namespace Sys2Proof.Machine

/-! ## General registers -/

/-- `x[r]`: register 0 reads as 0. R22. -/
def State.x (s : State) (r : Reg) : Word :=
  if r = 0#5 then 0#32 else s.regs[r.toNat - 1]'(by have := r.isLt; omega)

/-- `x[r] <- v`: a write of register 0 changes nothing. R22. -/
def State.setX (s : State) (r : Reg) (v : Word) : State :=
  if r = 0#5 then s
  else { s with regs := s.regs.set (r.toNat - 1) v (by have := r.isLt; omega) }

/-! ## The pc -/

/-- `pc <- pc + 4`, modulo 2^32: the only way the pc changes. R26, R27, R104. -/
def State.advance (s : State) : State := { s with pc := s.pc + 4#32 }

/-! ## Raising a stop -/

/-- The exceptions of R10 and R160: opcode zero is a halt, the others are faults. -/
inductive Exception where
  | opcodeZero
  | fault (kind : FaultKind)
deriving DecidableEq, Repr

/-- The numeric codes of the kinds, the spec's own. R161, D13. -/
def Exception.code : Exception → Nat
  | .opcodeZero => 0
  | .fault (.illegalOpcode _) => 1
  | .fault (.illegalInstruction _) => 2
  | .fault (.unmapped _) => 3
  | .fault (.outOfBounds _ _) => 4
  | .fault (.unsupportedSize _) => 5

/-- The numeric codes of the phases, the spec's own. R161, D13. -/
def Phase.code : Phase → Nat
  | .fetch => 0
  | .decode => 1
  | .execute => 2

/-- The status an exception names. R162 to R166. -/
def Exception.status (phase : Phase) : Exception → Status
  | .opcodeZero => .halted
  | .fault kind => .faulted phase kind

/-- `raise`: the stop, which is all the exception entry this machine has. The status takes the
exception's value; nothing is saved anywhere else, no mode changes, control goes nowhere, and the pc
stays where the step has put it. R10, R170. There is no return from a stop (R172): the only way out is
the construction of a new machine, `State.construct`. -/
def State.raise (s : State) (phase : Phase) (e : Exception) : State :=
  { s with status := e.status phase }

/-! ## The memory primitives -/

/-- The address one past the RAM, `RAM_BASE + MEM_SIZE`, a natural number up to 2^32. R41. -/
def State.ramEnd (s : State) : Nat := s.ramBase.val + Config.memSize

/-- `MEM[k]`, at address `RAM_BASE + k`. R10, R32. -/
def State.memByte (s : State) (k : Nat) : Byte := s.mem.read (s.ramBase.val + k)

/-- The first check of R43 and R44 that an access of `n` bytes at `addr` fails, if any: below `RAM_BASE`
it is `Unmapped`, whatever `n` is (R49); past the end of the RAM it is `OutOfBounds`, the sum taken in
natural numbers (R50). The whole byte range is checked before any byte moves (R51). -/
def accessFault (base : Config.RamBase) (addr : Word) (n : Nat) : Option FaultKind :=
  if addr.toNat < base.val then some (.unmapped addr)
  else if addr.toNat - base.val + n > Config.memSize then some (.outOfBounds addr n)
  else none

/-- `MemRead(addr, n)`: the number that the `n` bytes at `addr` make, lowest address least significant.
`MEM[index + k]` is at address `RAM_BASE + index + k = addr + k`. No alignment is required. R43, R45,
R46. -/
def State.memRead (s : State) (addr : Word) (n : Nat) : Except FaultKind Nat :=
  match accessFault s.ramBase addr n with
  | some kind => .error kind
  | none => .ok (leValue (s.mem.readBytes addr.toNat n))

/-- `MemWrite(addr, n, v)`: the low `8n` bits of `v` as `n` bytes at `addr`, lowest first, or a fault with
no byte written. R44, R45, R46, R51. -/
def State.memWrite (s : State) (addr : Word) (n v : Nat) : Except FaultKind State :=
  match accessFault s.ramBase addr n with
  | some kind => .error kind
  | none => .ok { s with mem := s.mem.writeBytes addr.toNat (leBytes n v) }

/-! ## The memory interface: widths in bits -/

/-- The widths the memory interface declares: "width ∈ {8, 16, 32, 64} bits". R48. -/
def widthSupported (width : Nat) : Bool :=
  width == 8 || width == 16 || width == 32 || width == 64

/-- `load(address, width)`: any other width raises `UnsupportedSize` before any other check. R8, R43,
R48, R167. -/
def State.load (s : State) (addr : Word) (width : Nat) : Except FaultKind Nat :=
  if widthSupported width then s.memRead addr (width / 8) else .error (.unsupportedSize width)

/-- `store(address, width, value)`, with the same check of the width. R8, R44, R48, R167. -/
def State.store (s : State) (addr : Word) (width v : Nat) : Except FaultKind State :=
  if widthSupported width then s.memWrite addr (width / 8) v else .error (.unsupportedSize width)

/-! ## Instruction fetch -/

/-- The fetch, `MemRead(pc, 4)`. R53, R103. -/
def State.fetch (s : State) : Except FaultKind Word :=
  (s.load s.pc 32).map (BitVec.ofNat 32)

/-- The stop of a word that is no instruction: an unsupported opcode stops in the decode phase (R105,
R163), an unsupported function code in the execute phase (R106, R164). The pc has already advanced
(R108). -/
def State.reject (s : State) : Reject → State
  | .illegalOpcode raw => s.raise .decode (.fault (.illegalOpcode raw))
  | .illegalInstruction raw => s.raise .execute (.fault (.illegalInstruction raw))

/-! ## What the host can do between steps -/

/-- The host reads a general register, with no side effect; entry 0 reads 0. R198. -/
def State.hostReadX (s : State) (r : Reg) : Word := s.x r

/-- The host reads `MEM[k]` by index, with no side effect. R198, R60. -/
def State.hostReadMem (s : State) (k : Fin Config.memSize) : Byte := s.memByte k.val

/-- The host writes `MEM[k]` by index, bypassing the bus and its checks. R199, R60, D19. It does so in
every status, a terminal one included, which the spec leaves open (DESIGN CHOICE, log entry 14). -/
def State.hostWriteMem (s : State) (k : Fin Config.memSize) (b : Byte) : State :=
  { s with mem := s.mem.write (s.ramBase.val + k.val) b }

/-- The instruction bytes placed where the next fetch reads them, where the pc is fetchable; elsewhere
the next step fetches nothing and there is no such place. R53, R191; log entry 3. -/
def State.placeAtPc (s : State) (bytes : List Byte) : State :=
  match accessFault s.ramBase s.pc bytes.length with
  | some _ => s
  | none => { s with mem := s.mem.writeBytes s.pc.toNat bytes }

end Sys2Proof.Machine
end

