-- ==== Sys2Proof/Machine/Halt.lean ====
section
/-! DEFINITION. The opcode-zero sentinel (R78): the clean end of a program. -/

namespace Sys2Proof.Machine

/-- A word whose opcode field is zero: `status <- Halted`; bits [31:7] are ignored, no value is recorded,
and nothing else changes. The pc already holds the address of the word plus 4. R107, R162. -/
def execOpcodeZero (_rest : BitVec 25) (s : State) : Result :=
  .next (s.raise .decode .opcodeZero)

end Sys2Proof.Machine
end

