-- ==== Sys2Proof/Machine/Operands.lean ====
section
/-! DEFINITION. The operand forms of the instruction set: the one addressing mode of loads and stores
(R120, R150), the widening of a loaded value (R47), and the shared bodies of the loads and of the
stores. -/

namespace Sys2Proof.Machine

/-- The effective address of a load or store, `x[rs1] + imm` modulo 2^32: base register plus signed
12-bit displacement, the only addressing mode. R120, R150. -/
def State.effAddr (s : State) (rs1 : Reg) (imm : Word) : Word := s.x rs1 + imm

/-- A value of `w` bits widened with its sign. R47, R10. -/
def widenSigned (w v : Nat) : Word := sext32 (BitVec.ofNat w v)

/-- A value of `w` bits widened with zeros. R47, R10. -/
def widenZero (w v : Nat) : Word := zext32 (BitVec.ofNat w v)

/-- A load: read through the memory interface, widen, write `x[rd]`; a memory fault stops the machine in
the execute phase with `x[rd]` not written. The address is computed from the old registers; with `rd = 0`
the read is still performed. R120, R106. -/
def State.loadTo (s : State) (rd : Reg) (addr : Word) (width : Nat) (widen : Nat → Word) : State :=
  match s.load addr width with
  | .ok v => s.setX rd (widen v)
  | .error kind => s.raise .execute (.fault kind)

/-- A store: the low `width` bits of `v` through the memory interface; a memory fault stops the machine
in the execute phase with no byte written. R150, R106. -/
def State.storeFrom (s : State) (addr : Word) (width : Nat) (v : Word) : State :=
  match s.store addr width v.toNat with
  | .ok t => t
  | .error kind => s.raise .execute (.fault kind)

end Sys2Proof.Machine
end

