-- ==== Sys2Proof/Machine/Loads.lean ====
section
/-! DEFINITION. The five loads, opcode `0x03` (spec/41_loads.md): execute phase only; the pc has already
been advanced. -/

namespace Sys2Proof.Machine

/-- `lb`: load byte, sign-extended. R121. -/
def execLb (rd rs1 : Reg) (imm : Word) (s : State) : Result :=
  .next (s.loadTo rd (s.effAddr rs1 imm) 8 (widenSigned 8))

/-- `lh`: load halfword, sign-extended. R122, decision D4. -/
def execLh (rd rs1 : Reg) (imm : Word) (s : State) : Result :=
  .next (s.loadTo rd (s.effAddr rs1 imm) 16 (widenSigned 16))

/-- `lw`: load word. R123. -/
def execLw (rd rs1 : Reg) (imm : Word) (s : State) : Result :=
  .next (s.loadTo rd (s.effAddr rs1 imm) 32 (BitVec.ofNat 32))

/-- `lbu`: load byte, zero-extended. R124. -/
def execLbu (rd rs1 : Reg) (imm : Word) (s : State) : Result :=
  .next (s.loadTo rd (s.effAddr rs1 imm) 8 (widenZero 8))

/-- `lhu`: load halfword, zero-extended. R125, decision D4. -/
def execLhu (rd rs1 : Reg) (imm : Word) (s : State) : Result :=
  .next (s.loadTo rd (s.effAddr rs1 imm) 16 (widenZero 16))

end Sys2Proof.Machine
end

