-- ==== Sys2Proof/Machine/Flags.lean ====
section
/-! DEFINITION. The ALU. There are no flags, condition codes or predicate registers (R29): the 32-bit
result is all that an arithmetic operation produces, and no operation faults (R142). -/

namespace Sys2Proof.Machine

/-- `(a + b) mod 2^32`. R142. -/
def aluAdd (a b : Word) : Word := a + b

/-- `(a - b + 2^32) mod 2^32`. R142. -/
def aluSub (a b : Word) : Word := a - b

end Sys2Proof.Machine
end

