-- ==== Sys2Proof/Machine/Op.lean ====
section
/-! DEFINITION. The register-register ALU instructions, opcode `0x33` (spec/43_op.md). -/

namespace Sys2Proof.Machine

/-- `add`: `x[rd] <- x[rs1] + x[rs2]`, modulo 2^32; no flag, no fault. R140, R142. -/
def execAdd (rd rs1 rs2 : Reg) (s : State) : Result :=
  .next (s.setX rd (aluAdd (s.x rs1) (s.x rs2)))

/-- `sub`: `x[rd] <- x[rs1] - x[rs2]`, modulo 2^32; `rs1` is the minuend, `rs2` the subtrahend (the
order is the rule's; the spec marks it as general knowledge, G2). No flag, no fault. R141, R142. -/
def execSub (rd rs1 rs2 : Reg) (s : State) : Result :=
  .next (s.setX rd (aluSub (s.x rs1) (s.x rs2)))

end Sys2Proof.Machine
end

