-- ==== Sys2Proof/Machine/OpImm.lean ====
section
/-! DEFINITION. The register-immediate ALU instruction, opcode `0x13` (spec/42_op_imm.md). -/

namespace Sys2Proof.Machine

/-- `addi`: `x[rd] <- x[rs1] + imm`, modulo 2^32; no flag, no fault. R130. -/
def execAddi (rd rs1 : Reg) (imm : Word) (s : State) : Result :=
  .next (s.setX rd (aluAdd (s.x rs1) imm))

end Sys2Proof.Machine
end

