-- ==== Sys2Proof/Machine/Stores.lean ====
section
/-! DEFINITION. The three stores, opcode `0x23` (spec/44_stores.md): `rs1` is the base, `rs2` the value;
execute phase only. -/

namespace Sys2Proof.Machine

/-- `sb`: store the low byte of `x[rs2]`. R151, decision D5. -/
def execSb (rs1 rs2 : Reg) (imm : Word) (s : State) : Result :=
  .next (s.storeFrom (s.effAddr rs1 imm) 8 (s.x rs2))

/-- `sh`: store the low halfword of `x[rs2]`. R152, decision D4. -/
def execSh (rs1 rs2 : Reg) (imm : Word) (s : State) : Result :=
  .next (s.storeFrom (s.effAddr rs1 imm) 16 (s.x rs2))

/-- `sw`: store `x[rs2]`. R153. -/
def execSw (rs1 rs2 : Reg) (imm : Word) (s : State) : Result :=
  .next (s.storeFrom (s.effAddr rs1 imm) 32 (s.x rs2))

end Sys2Proof.Machine
end

