-- ==== Sys2Proof/Machine/Step.lean ====
section
/-! DEFINITION. The one transition of the machine, R100 to R112 (spec/40_fetch_cycle.md). -/

namespace Sys2Proof.Machine

/-- One step: fetch the word at the pc, advance the pc, decode, execute. A stop met on the way is the
next state's status (R108, R170); in a terminal status there is no step (R101). Action (a), forcing
register 0 to zero, changes nothing here (R102). -/
def step (s : State) : Host.Outcome State Fault Refusal :=
  match s.status with
  | .halted => .fault .alreadyHalted
  | .faulted phase kind => .fault (.alreadyFaulted phase kind)
  | .running =>
    match s.fetch with
    | .error kind => .next (s.raise .fetch (.fault kind))
    | .ok raw =>
      match decode raw with
      | .ok i => exec i s.advance
      | .error r => .next (s.advance.reject r)

/-- The state with the instruction whose bits are `w` (bit 0 the least significant of its first byte, the
bits from `nbits` on zero) stored in the four bytes at the pc, where `step` fetches. Nothing else
changes. R45, R53; log entry 3. -/
def State.withFetchWord (s : State) (nbits w : Nat) : State :=
  s.placeAtPc (leBytes 4 (w % 2 ^ nbits))

end Sys2Proof.Machine
end

