-- ==== Sys2Proof/Machine/Driver.lean ====
section
/-! DEFINITION. The host's two ways to run the machine (spec/70_reset_and_hazards.md): a single step with
its report (R197) and the run-to-completion driver, which the spec describes as host behaviour (R196). -/

namespace Sys2Proof.Machine

/-- The single-step entry point: the state after one step and its report, which is "exactly the new value
of `status`". In a terminal status the host may not step, and there is no answer. R197, R101. -/
def State.hostStep (s : State) : Option (State × Status) :=
  match step s with
  | .next t => some (t, t.status)
  | .fault _ => none
  | .refused _ => none

/-- The driver's loop condition, `status = Running and pc < RAM_BASE + MEM_SIZE`. R196, D14. -/
def State.driverContinues (s : State) : Bool :=
  decide (s.status = .running) && decide (s.pc.toNat < s.ramEnd)

/-- The run-to-completion driver, at most `fuel` steps of it: `while status = Running and
pc < RAM_BASE + MEM_SIZE: Step()`. Its report is the final status. R196. -/
def State.drive : Nat → State → State
  | 0, s => s
  | fuel + 1, s =>
    if s.driverContinues then
      match s.hostStep with
      | some (t, _) => State.drive fuel t
      | none => s
    else s

end Sys2Proof.Machine
end

