-- ==== Sys2Proof/Safety.lean ====
section
/-! DEFINITION. The terms claims are stated in: terminal, final and faulted states, the well-formed
states, and the states the machine can be in. -/

namespace Sys2Proof.Machine

/-- No step is taken from the state. R28, R101. -/
def State.Terminal (s : State) : Prop := s.status ≠ .running

/-- "clean end-of-program": the state is final. R195 case 1, R197. -/
def State.Final (s : State) : Prop := s.status = .halted

/-- "abnormal halt to be reported": the machine stopped in a fault; never a final state. R195, R197. -/
def State.Faulted (s : State) : Prop := ∃ phase kind, s.status = .faulted phase kind

/-- A safe state: the machine has not stopped in a fault. R197. -/
def State.Safe (s : State) : Prop := ¬ s.Faulted

/-- The RAM is in canonical form and lists no address outside the RAM. R32, R41. -/
def State.memOk (s : State) : Bool :=
  s.mem.wf && s.mem.within s.ramBase.val s.ramEnd

/-- The recorded status is one that a step of this machine can leave: the kind occurs in its phase (R161)
and the recorded value is that of such an access or word (R163 to R166). -/
def Status.sound (base : Config.RamBase) : Status → Bool
  | .running => true
  | .halted => true
  | .faulted .fetch (.unmapped a) => accessFault base a 4 == some (.unmapped a)
  | .faulted .fetch (.outOfBounds a n) => accessFault base a 4 == some (.outOfBounds a n)
  | .faulted .decode (.illegalOpcode raw) => decodeFormat raw == .illegalOpcode raw
  | .faulted .execute (.illegalInstruction raw) => decode raw == .error (.illegalInstruction raw)
  | .faulted .execute (.unmapped a) => decide (a.toNat < base.val)
  | .faulted .execute (.outOfBounds a n) =>
    (n == 1 || n == 2 || n == 4) && accessFault base a n == some (.outOfBounds a n)
  | .faulted _ _ => false

/-- The well-formed states: the invariant that the construction establishes and that every step and every
host move keeps. -/
def State.Inv (s : State) : Prop := s.memOk = true ∧ s.status.sound s.ramBase = true

/-- One move of the machine or of its host: a step that answers a next state (R100), or a host write of
one byte between steps (R199: "This is the one way state can change outside a step"). A host write needs
no particular status. DESIGN CHOICE, log entry 14: whether the host may still write once the status is
`Halted` or `Faulted` the spec leaves open (R195), and the move allows it. -/
inductive Move : State → State → Prop
  | step {s t : State} (h : step s = .next t) : Move s t
  | hostWrite (s : State) (k : Fin Config.memSize) (b : Byte) : Move s (s.hostWriteMem k b)

/-- The states of the machine constructed from `base` and any image, after any moves. R190. -/
inductive Reachable (base : Config.RamBase) : State → Prop
  | construct (image : List Byte) : Reachable base (State.construct base image)
  | move {s t : State} (h : Reachable base s) (m : Move s t) : Reachable base t

/-- `k` steps lead from one state to another. The step is a function, so this is the machine's one run.
R100, R101. -/
inductive Steps : Nat → State → State → Prop
  | refl (s : State) : Steps 0 s s
  | step {k : Nat} {s t u : State} (h : step s = .next t) (hs : Steps k t u) : Steps (k + 1) s u

/-! ## The three regions of the address map, R41 -/

/-- All `n` bytes of an access at `addr` lie in the RAM. R41, R50. -/
def State.InRam (s : State) (addr : Word) (n : Nat) : Prop :=
  s.ramBase.val ≤ addr.toNat ∧ addr.toNat - s.ramBase.val + n ≤ Config.memSize

/-- The first byte of an access at `addr` lies below the RAM. R41, R49. -/
def State.BelowRam (s : State) (addr : Word) : Prop := addr.toNat < s.ramBase.val

/-- An access of `n` bytes at `addr` starts at or above `RAM_BASE` and reaches past the RAM; the sum is
one of natural numbers. R41, R50. -/
def State.PastRam (s : State) (addr : Word) (n : Nat) : Prop :=
  s.ramBase.val ≤ addr.toNat ∧ addr.toNat - s.ramBase.val + n > Config.memSize

/-! ## Frames -/

/-- `t` is `s` except, perhaps, for register `rd`: what an instruction that writes one register leaves
unchanged. R24. -/
structure State.SameButReg (s t : State) (rd : Reg) : Prop where
  ramBase : t.ramBase = s.ramBase
  pc : t.pc = s.pc
  status : t.status = s.status
  x : ∀ r, r ≠ rd → t.x r = s.x r
  mem : ∀ a, t.mem.read a = s.mem.read a

/-- `t` is `s` except, perhaps, for the `n` bytes from address `a` on: what a store leaves unchanged.
R24, R52. -/
structure State.SameButBytes (s t : State) (a n : Nat) : Prop where
  ramBase : t.ramBase = s.ramBase
  pc : t.pc = s.pc
  status : t.status = s.status
  x : ∀ r, t.x r = s.x r
  mem : ∀ b, b < a ∨ a + n ≤ b → t.mem.read b = s.mem.read b

/-- The register an instruction writes, the table of R24. -/
def destOf : Instr → Option Reg
  | .lb rd _ _ => some rd
  | .lh rd _ _ => some rd
  | .lw rd _ _ => some rd
  | .lbu rd _ _ => some rd
  | .lhu rd _ _ => some rd
  | .addi rd _ _ => some rd
  | .add rd _ _ => some rd
  | .sub rd _ _ => some rd
  | .sb _ _ _ => none
  | .sh _ _ _ => none
  | .sw _ _ _ => none
  | .opcodeZero _ => none

/-- The address and the number of bytes of the data access an instruction makes, R47, R120, R150. -/
def dataAccess (s : State) : Instr → Option (Word × Nat)
  | .lb _ rs1 imm => some (s.effAddr rs1 imm, 1)
  | .lh _ rs1 imm => some (s.effAddr rs1 imm, 2)
  | .lw _ rs1 imm => some (s.effAddr rs1 imm, 4)
  | .lbu _ rs1 imm => some (s.effAddr rs1 imm, 1)
  | .lhu _ rs1 imm => some (s.effAddr rs1 imm, 2)
  | .addi _ _ _ => none
  | .add _ _ _ => none
  | .sub _ _ _ => none
  | .sb rs1 _ imm => some (s.effAddr rs1 imm, 1)
  | .sh rs1 _ imm => some (s.effAddr rs1 imm, 2)
  | .sw rs1 _ imm => some (s.effAddr rs1 imm, 4)
  | .opcodeZero _ => none

/-- The three instructions that write memory, R24, R32. -/
def isStore : Instr → Bool
  | .lb _ _ _ => false
  | .lh _ _ _ => false
  | .lw _ _ _ => false
  | .lbu _ _ _ => false
  | .lhu _ _ _ => false
  | .addi _ _ _ => false
  | .add _ _ _ => false
  | .sub _ _ _ => false
  | .sb _ _ _ => true
  | .sh _ _ _ => true
  | .sw _ _ _ => true
  | .opcodeZero _ => false

end Sys2Proof.Machine
end

