-- ==== Sys2Proof/Certificates/Slice0/Obligations.lean ====
section
/-! DEFINITION. The statements for the provers. Each docstring names the rule of the spec it formalises.
Statements about every state hold in states no run reaches too; where a statement needs the RAM to be in
canonical form it says so with `State.memOk`, which `InvariantKeptByEveryMove` and
`ConstructionEstablishesInvariant` state to be an invariant. `RAM_BASE` is arbitrary throughout: no
statement rests on `Config.resetBase` (log entry 1). -/

open Sys2Proof Sys2Proof.Machine

/-! ## Encoding (spec/30_encoding.md) -/

/-- Four words of spec/95_test_vectors.md section 2.1, written out field by field from R72 to R74, decode to
the instructions they stand for. The fifth, 13010100, is no instruction in the spec but the decode failure
`OpcodeZero` (R78): that `decode` answers it with a term of `Instr` that carries bits [31:7] is the
model's choice, log entry 6. -/
def Obligations.WrittenWordsDecode : Prop :=
  decode 0b111111111100_00110_010_00101_0000011#32 = .ok (.lw 5#5 6#5 0xFFFFFFFC#32) ∧
  decode 0b000000010000_00000_000_00010_0010011#32 = .ok (.addi 2#5 0#5 16#32) ∧
  decode 0b0100000_00010_00001_000_00100_0110011#32 = .ok (.sub 4#5 1#5 2#5) ∧
  decode 0b1111110_01110_01111_010_11111_0100011#32 = .ok (.sw 15#5 14#5 0xFFFFFFDF#32) ∧
  decode 0b0001001100000001000000010_0000000#32 = .ok (.opcodeZero 0x260202#25)

/-- Tier 3: no bit of an encoding is dropped. For every well-formed instruction, with every operand at
every value its encoding admits, decoding its word gives it back. R72 to R76, R81, R86. That the opcode-zero
sentinel is one of the instructions, with bits [31:7] kept, is the model's choice (log entry 6), and so
is what well-formed means for a term's immediate (log entry 12). -/
def Obligations.EncodedInstructionDecodesBack : Prop :=
  ∀ i : Instr, i.wellFormed = true → decode (encode i) = .ok i

/-- The other direction: a word that decodes to an instruction is that instruction's word, and the
instruction is well-formed, so no two words are one instruction. R86. The sentinel as an instruction that
keeps bits [31:7] is the model's choice (log entry 6), as is what well-formed means (log entry 12). -/
def Obligations.DecodedWordEncodesBack : Prop :=
  ∀ (raw : Word) (i : Instr), decode raw = .ok i → encode i = raw ∧ i.wellFormed = true

/-- R86: the decoder's output holds the fields of R72 to R76, the opcode is the low 7 bits of the word,
the immediates are sign-extended, and `raw` can be rebuilt from the value. -/
def Obligations.FormatKeepsEveryBit : Prop :=
  ∀ (raw : Word) (f : Format), decodeFormat raw = .format f →
    f.word = raw ∧
    match f with
    | .rType opcode rd rs1 rs2 funct3 funct7 =>
      opcode = raw.extractLsb' 0 7 ∧ rd = raw.extractLsb' 7 5 ∧ funct3 = raw.extractLsb' 12 3 ∧
        rs1 = raw.extractLsb' 15 5 ∧ rs2 = raw.extractLsb' 20 5 ∧ funct7 = raw.extractLsb' 25 7
    | .iType opcode rd rs1 imm funct3 =>
      opcode = raw.extractLsb' 0 7 ∧ rd = raw.extractLsb' 7 5 ∧ funct3 = raw.extractLsb' 12 3 ∧
        rs1 = raw.extractLsb' 15 5 ∧ imm = (raw.extractLsb' 20 12).signExtend 32
    | .sType opcode rs1 rs2 imm funct3 =>
      opcode = raw.extractLsb' 0 7 ∧ funct3 = raw.extractLsb' 12 3 ∧ rs1 = raw.extractLsb' 15 5 ∧
        rs2 = raw.extractLsb' 20 5 ∧
        imm = (raw.extractLsb' 25 7 ++ raw.extractLsb' 7 5).signExtend 32

/-- R77, R78, R79: the format is selected from the low 7 bits alone; zero is `OpcodeZero`, whatever bits
[31:7] are (the spec's inference, R78 "derived"), and each of the other 123 values is
`IllegalOpcode(raw)` (the spec's own choice, decision D9). -/
def Obligations.OpcodeSelectsFormat : Prop :=
  ∀ raw : Word,
    (decodeFormat raw = .opcodeZero ↔ raw.extractLsb' 0 7 = 0x00#7) ∧
    ((∃ opcode rd rs1 imm funct3, decodeFormat raw = .format (.iType opcode rd rs1 imm funct3)) ↔
      raw.extractLsb' 0 7 = 0x03#7 ∨ raw.extractLsb' 0 7 = 0x13#7) ∧
    ((∃ opcode rs1 rs2 imm funct3, decodeFormat raw = .format (.sType opcode rs1 rs2 imm funct3)) ↔
      raw.extractLsb' 0 7 = 0x23#7) ∧
    ((∃ opcode rd rs1 rs2 funct3 funct7,
        decodeFormat raw = .format (.rType opcode rd rs1 rs2 funct3 funct7)) ↔
      raw.extractLsb' 0 7 = 0x33#7) ∧
    (decodeFormat raw = .illegalOpcode raw ↔
      raw.extractLsb' 0 7 ≠ 0x00#7 ∧ raw.extractLsb' 0 7 ≠ 0x03#7 ∧ raw.extractLsb' 0 7 ≠ 0x13#7 ∧
        raw.extractLsb' 0 7 ≠ 0x23#7 ∧ raw.extractLsb' 0 7 ≠ 0x33#7)

/-- R81: a word is the instruction of a row of the opcode table exactly when `raw & mask = match`, and no
word that matches no row is an instruction. `i` ranges over the opcode-zero sentinel too, whose row is no
row of R81's table: its match and mask are R78's test of the low 7 bits (bits [31:7] ignored: "derived"
there), and that it is a term of `Instr`, which R78 calls "not a valid instruction", is the model's
choice, log entry 6. -/
def Obligations.MatchAndMaskSelectRow : Prop :=
  ∀ raw : Word,
    (∀ i, decode raw = .ok i → raw &&& maskOf i = matchOf i) ∧
    (∀ i, raw &&& maskOf i = matchOf i →
      ∃ j, decode raw = .ok j ∧ maskOf j = maskOf i ∧ matchOf j = matchOf i)

/-- R82, R131, R143 and the illegal rows of R81: the function codes that select no instruction, for each
supported opcode; all seven bits of funct7 are compared. That such a word is a typed fault of the execute
phase is the spec's own choice (R82, decision D9); that `decode` already answers it is the model's, log
entry 11. -/
def Obligations.IllegalFunctionCodesRejected : Prop :=
  ∀ raw : Word,
    (raw.extractLsb' 0 7 = 0x03#7 →
      (raw.extractLsb' 12 3 = 3#3 ∨ raw.extractLsb' 12 3 = 6#3 ∨ raw.extractLsb' 12 3 = 7#3) →
      decode raw = .error (.illegalInstruction raw)) ∧
    (raw.extractLsb' 0 7 = 0x13#7 → raw.extractLsb' 12 3 ≠ 0#3 →
      decode raw = .error (.illegalInstruction raw)) ∧
    (raw.extractLsb' 0 7 = 0x23#7 → (3#3).ule (raw.extractLsb' 12 3) = true →
      decode raw = .error (.illegalInstruction raw)) ∧
    (raw.extractLsb' 0 7 = 0x33#7 →
      ¬ (raw.extractLsb' 12 3 = 0#3 ∧
        (raw.extractLsb' 25 7 = 0x00#7 ∨ raw.extractLsb' 25 7 = 0x20#7)) →
      decode raw = .error (.illegalInstruction raw))

/-- R75: the I-type immediate is the sign extension of bits [31:20], equivalently the arithmetic right
shift of the word by 20; its range is -2048 to 2047. -/
def Obligations.ITypeImmediateSignExtends : Prop :=
  ∀ raw : Word,
    immIOf raw = (raw.extractLsb' 20 12).signExtend 32 ∧
    immIOf raw = raw.sshiftRight 20 ∧
    -2048 ≤ (immIOf raw).toInt ∧ (immIOf raw).toInt ≤ 2047

/-- R76: the S-type immediate is the sign extension of bits [31:25] joined above bits [11:7]; as a
computation, the sign-extended high part shifted left by 5, OR the low part, written in the rule's two
ways; its range is -2048 to 2047. That the high part is shifted by 5 is the spec's own inference (R76 "it
must be", conflict C6, log entry 10). -/
def Obligations.STypeImmediateSignExtends : Prop :=
  ∀ raw : Word,
    immSOf raw = (raw.extractLsb' 25 7 ++ raw.extractLsb' 7 5).signExtend 32 ∧
    immSOf raw = ((raw.extractLsb' 25 7).signExtend 32 <<< 5) ||| (raw.extractLsb' 7 5).setWidth 32 ∧
    immSOf raw = (raw.sshiftRight 25 <<< 5) ||| ((raw >>> 7) &&& 0x1f#32) ∧
    -2048 ≤ (immSOf raw).toInt ∧ (immSOf raw).toInt ≤ 2047

/-! ## The step (spec/40_fetch_cycle.md, spec/60_exceptions.md) -/

/-- R100, R112: when the four bytes at the pc lie in the RAM and decode to an instruction, a step is that
instruction's meaning in the state whose pc has been advanced by 4 and nothing else changed. That this
covers the opcode-zero sentinel, which halts in the spec's decode phase, is log entry 6. -/
def Obligations.StepRunsDecodedInstruction : Prop :=
  ∀ (s : State) (i : Instr), s.status = .running → s.InRam s.pc 4 →
    decode (s.mem.read (s.pc.toNat + 3) ++ s.mem.read (s.pc.toNat + 2) ++
      s.mem.read (s.pc.toNat + 1) ++ s.mem.read s.pc.toNat : Word) = .ok i →
    step s = exec i { s with pc := s.pc + 4#32 }

/-- R103: a fetch that raises `Unmapped(pc)` or `OutOfBounds(pc, 4)` ends the step with that fault in the
fetch phase and nothing else changes: the pc is not advanced (the spec's inference from the order of
actions, R103 "derived"; the two faults are its decisions D7 and D8). -/
def Obligations.FetchFaultKeepsPc : Prop :=
  ∀ s : State, s.status = .running →
    (s.InRam s.pc 4 → s.fetch = .ok (s.mem.read (s.pc.toNat + 3) ++ s.mem.read (s.pc.toNat + 2) ++
      s.mem.read (s.pc.toNat + 1) ++ s.mem.read s.pc.toNat : Word)) ∧
    (s.BelowRam s.pc → step s = .next { s with status := .faulted .fetch (.unmapped s.pc) }) ∧
    (s.PastRam s.pc 4 → step s = .next { s with status := .faulted .fetch (.outOfBounds s.pc 4) })

/-- R163: a fetched word whose opcode is outside the supported set and not zero stops the machine in the
decode phase, the word recorded, the pc advanced, nothing else changed. That it is a typed fault is the
spec's own choice (R163, decision D9). -/
def Obligations.IllegalOpcodeStops : Prop :=
  ∀ (s : State) (raw : Word), s.status = .running → s.fetch = .ok raw →
    raw.extractLsb' 0 7 ≠ 0x00#7 → raw.extractLsb' 0 7 ≠ 0x03#7 → raw.extractLsb' 0 7 ≠ 0x13#7 →
    raw.extractLsb' 0 7 ≠ 0x23#7 → raw.extractLsb' 0 7 ≠ 0x33#7 →
    step s = .next { s with pc := s.pc + 4#32, status := .faulted .decode (.illegalOpcode raw) }

/-- R164: a fetched word with a supported opcode that is no row of the opcode table stops the machine in
the execute phase, the word recorded, the pc advanced; no register or memory byte changes. The typed fault
of the execute phase is the spec's own choice (decision D9, log entry 10). -/
def Obligations.IllegalFunctionCodeStops : Prop :=
  ∀ (s : State) (raw : Word), s.status = .running → s.fetch = .ok raw →
    (raw.extractLsb' 0 7 = 0x03#7 ∨ raw.extractLsb' 0 7 = 0x13#7 ∨ raw.extractLsb' 0 7 = 0x23#7 ∨
      raw.extractLsb' 0 7 = 0x33#7) →
    (∀ i, raw &&& maskOf i ≠ matchOf i) →
    step s = .next { s with pc := s.pc + 4#32, status := .faulted .execute (.illegalInstruction raw) }

/-- R162: a fetched word with opcode zero halts the machine with the pc at its address plus 4 and nothing
else changed, whatever its bits [31:7]; it is the only way to reach `Halted`; and `Halted` is terminal. The
first clause is the completion of the sentinel as a row of the opcode table: that it is a term of `Instr`
with a meaning is the model's choice, log entry 6. That "terminal" is the answer `alreadyHalted` is the
model's too, log entry 5; the terminal halt and the pc are the spec's decision D11. -/
def Obligations.OpcodeZeroHalts : Prop :=
  (∀ (rest : BitVec 25) (s : State), exec (.opcodeZero rest) s = .next { s with status := .halted }) ∧
  (∀ (s : State) (raw : Word), s.status = .running → s.fetch = .ok raw →
    raw.extractLsb' 0 7 = 0x00#7 →
    step s = .next { s with pc := s.pc + 4#32, status := .halted }) ∧
  (∀ s t : State, step s = .next t → t.status = .halted →
    ∃ raw, s.fetch = .ok raw ∧ raw.extractLsb' 0 7 = 0x00#7) ∧
  (∀ s : State, s.status = .halted → step s = .fault .alreadyHalted)

/-- R101: a step is taken when the status is `Running`, and only then; in `Halted` and `Faulted` there is
no next state (the spec's own choice, decisions D10 and D11; log entry 5 for the names). -/
def Obligations.StepTakenOnlyWhenRunning : Prop :=
  ∀ s : State,
    (s.status = .running → ∃ t, step s = .next t) ∧
    (s.status = .halted → step s = .fault .alreadyHalted) ∧
    (∀ phase kind, s.status = .faulted phase kind → step s = .fault (.alreadyFaulted phase kind))

/-- R108: the state after a step, row by row of the rule's table, which the spec derives from the order of
the step's actions. The last row's registers and memory are those of the instruction's own meaning. The
sentinel as a term of `Instr`, which that row shuts out because it has a row of its own, is the model's
choice, log entry 6. -/
def Obligations.StepOutcomeTable : Prop :=
  ∀ s t : State, step s = .next t →
    (∃ kind, s.fetch = .error kind ∧ t = { s with status := .faulted .fetch kind }) ∨
    (∃ raw, s.fetch = .ok raw ∧ decodeFormat raw = .opcodeZero ∧
      t = { s with pc := s.pc + 4#32, status := .halted }) ∨
    (∃ raw, s.fetch = .ok raw ∧ decodeFormat raw = .illegalOpcode raw ∧
      t = { s with pc := s.pc + 4#32, status := .faulted .decode (.illegalOpcode raw) }) ∨
    (∃ raw f, s.fetch = .ok raw ∧ decodeFormat raw = .format f ∧ select f = none ∧
      t = { s with pc := s.pc + 4#32, status := .faulted .execute (.illegalInstruction raw) }) ∨
    (∃ raw i addr n kind, s.fetch = .ok raw ∧ decode raw = .ok i ∧ dataAccess s i = some (addr, n) ∧
      (s.BelowRam addr ∧ kind = .unmapped addr ∨ s.PastRam addr n ∧ kind = .outOfBounds addr n) ∧
      t = { s with pc := s.pc + 4#32, status := .faulted .execute kind }) ∨
    (∃ raw i, s.fetch = .ok raw ∧ decode raw = .ok i ∧ (∀ rest, i ≠ .opcodeZero rest) ∧
      (∀ addr n, dataAccess s i = some (addr, n) → s.InRam addr n) ∧
      exec i { s with pc := s.pc + 4#32 } = .next t ∧ t.pc = s.pc + 4#32 ∧ t.status = .running)

/-- R171: a stop is precise. The step that stops the machine has changed no register and no memory byte;
the pc holds the stopping word's address plus 4, and for a fetch fault the faulting address itself; and
no step follows, so no later instruction begins. The pc after a stop the spec derives (R108), and that a
stop is terminal is its own choice (decisions D10 and D11, log entries 5 and 10). -/
def Obligations.StopIsPrecise : Prop :=
  ∀ s t : State, step s = .next t → t.status ≠ .running →
    (∀ r, t.x r = s.x r) ∧ (∀ a, t.mem.read a = s.mem.read a) ∧
    (∀ kind, t.status = .faulted .fetch kind → t.pc = s.pc) ∧
    ((∀ kind, t.status ≠ .faulted .fetch kind) → t.pc = s.pc + 4#32) ∧
    (∀ u, step t ≠ .next u)

/-- R26: every step that completes its fetch adds 4 to the pc, and this is the only way the pc changes.
That a step stopped in its fetch keeps the pc is the spec's inference (R26 "derived"), and that the sum
is modulo 2^32 is its own choice (R27, decision D12). -/
def Obligations.PcAdvancesByFour : Prop :=
  ∀ s t : State, step s = .next t →
    (∀ raw, s.fetch = .ok raw → t.pc = s.pc + 4#32) ∧
    (∀ kind, s.fetch = .error kind → t.pc = s.pc)

/-- R169: one stop per step, the first met in the order of the actions: fetch `Unmapped`, fetch
`OutOfBounds`, opcode zero or an illegal opcode, an illegal function code, data `Unmapped`, data
`OutOfBounds`. The function code before the address is the spec's own choice (decision D18). -/
def Obligations.FirstStopWins : Prop :=
  ∀ s t : State, step s = .next t →
    (s.BelowRam s.pc → t.status = .faulted .fetch (.unmapped s.pc)) ∧
    (s.PastRam s.pc 4 → t.status = .faulted .fetch (.outOfBounds s.pc 4)) ∧
    (∀ raw, s.fetch = .ok raw →
      (decodeFormat raw = .opcodeZero → t.status = .halted) ∧
      (decodeFormat raw = .illegalOpcode raw → t.status = .faulted .decode (.illegalOpcode raw)) ∧
      (∀ f, decodeFormat raw = .format f →
        (select f = none → t.status = .faulted .execute (.illegalInstruction raw)) ∧
        (∀ i, select f = some i →
          (dataAccess s i = none → t.status = .running) ∧
          (∀ addr n, dataAccess s i = some (addr, n) →
            (s.BelowRam addr → t.status = .faulted .execute (.unmapped addr)) ∧
            (s.PastRam addr n → t.status = .faulted .execute (.outOfBounds addr n)) ∧
            (s.InRam addr n → t.status = .running)))))

/-- R167, R168: no step ends in `UnsupportedSize`, and each kind occurs only in its phases of R161. The typed
illegal-opcode and illegal-instruction faults are the spec's own choice (decision D9). -/
def Obligations.FaultKindsOccurInTheirPhases : Prop :=
  ∀ (s t : State) (phase : Phase) (kind : FaultKind), step s = .next t →
    t.status = .faulted phase kind →
    match kind with
    | .illegalOpcode _ => phase = .decode
    | .illegalInstruction _ => phase = .execute
    | .unmapped _ => phase = .fetch ∨ phase = .execute
    | .outOfBounds _ _ => phase = .fetch ∨ phase = .execute
    | .unsupportedSize _ => False

/-- The host's withFetchWord places a word where the next step runs it, for every `RAM_BASE` and every pc
whose four bytes lie in the RAM: a program's words loaded from outside run. The model's choice, log entry
3; that the word may be the opcode-zero sentinel's is log entry 6. -/
def Obligations.PlacedWordRuns : Prop :=
  ∀ (s : State) (nbits w : Nat) (i : Instr), s.status = .running → s.memOk = true → s.InRam s.pc 4 →
    decodeTableWord nbits w = some i →
    step (s.withFetchWord nbits w) =
      exec i { s.withFetchWord nbits w with pc := s.pc + 4#32 } ∧
    s.SameButBytes (s.withFetchWord nbits w) s.pc.toNat 4

/-! ## Invariants and whole-machine rules -/

/-- Tier 3: every step and every host move keeps the invariant: the RAM in canonical form and within its
4096 addresses (R32, R41), the recorded status one that such a step can leave (R161 to R166). The canonical
form is the model's own (log entry 4), and so is that a host move may follow a stop (log entry
14); host moves as moves of their own are log entry 9. -/
def Obligations.InvariantKeptByEveryMove : Prop :=
  ∀ s t : State, s.Inv → Move s t → t.Inv

/-- The invariant holds of the machine constructed from any `RAM_BASE` and any image (R190), and at the
fixed reset state, which is the model's choice of one machine (log entry 1). The canonical form of the
RAM within the invariant is the model's own (log entry 4). -/
def Obligations.ConstructionEstablishesInvariant : Prop :=
  (∀ (base : Config.RamBase) (image : List Byte), (State.construct base image).Inv) ∧ State.reset.Inv

/-- R35: `RAM_BASE` is a constant of the machine and does not change while it runs. The model carries it
in `State` (its own choice, log entry 2). Moves include host writes between steps (log entry
9) and after a stop (log entry 14). -/
def Obligations.RamBaseNeverChanges : Prop :=
  ∀ s t : State, Move s t → t.ramBase = s.ramBase

/-- R27: with `RESET_VECTOR = RAM_BASE` the pc is always `RAM_BASE + 4k`, modulo 2^32 (the wrap is the
spec's own choice, decision D12), and R109 ("derived"): k is at most 1024. Host writes may lie between
the steps (log entry 9) and after a stop (log entry 14). -/
def Obligations.PcStaysOnWordGrid : Prop :=
  ∀ (base : Config.RamBase) (s : State), Reachable base s →
    ∃ k ≤ 1024, s.pc = BitVec.ofNat 32 (base.val + 4 * k)

/-- R24: a step changes no register but the destination of the instruction it executes. -/
def Obligations.OnlyDestinationRegisterChanges : Prop :=
  ∀ (s t : State) (r : Reg), step s = .next t → t.x r ≠ s.x r →
    ∃ raw i, s.fetch = .ok raw ∧ decode raw = .ok i ∧ destOf i = some r

/-- R32, R24: a step changes no memory byte but those within the access of a store it executes. -/
def Obligations.OnlyStoresChangeMemory : Prop :=
  ∀ (s t : State) (a : Nat), step s = .next t → t.mem.read a ≠ s.mem.read a →
    ∃ raw i addr n, s.fetch = .ok raw ∧ decode raw = .ok i ∧ isStore i = true ∧
      dataAccess s i = some (addr, n) ∧ s.InRam addr n ∧ addr.toNat ≤ a ∧ a < addr.toNat + n

/-- R109, R195: the machine cannot run for ever. From every running state, whatever its pc, its
registers and its memory, the machine reaches a terminal status, and no run of it has more than 1025
steps: 1024 completed ones and the one that stops it. The spec derives it for runs from reset; this is
the same for every state. The host writes nothing between these steps (log entry 9). -/
def Obligations.EveryRunStops : Prop :=
  ∀ s : State,
    (s.status = .running → ∃ k ≤ 1025, ∃ t, Steps k s t ∧ t.Terminal) ∧
    (∀ k t, Steps k s t → k ≤ 1025)

/-- R196: the run-to-completion driver ends, with the machine stopped or the pc past the RAM, from every
state. The driver's bound in address terms is the spec's own choice (decision D14). R196 has a loop and no
fuel: `State.drive` with a number of steps, and so the hypothesis `1025 ≤ fuel`, is the model's choice,
log entry 13. -/
def Obligations.DriverEnds : Prop :=
  ∀ (s : State) (fuel : Nat), 1025 ≤ fuel →
    (State.drive fuel s).Terminal ∨ (State.drive fuel s).ramEnd ≤ (State.drive fuel s).pc.toNat

/-- R197: the result of the host's single step is the new value of `status`; the host may not step a
machine whose status is terminal. -/
def Obligations.HostStepReportsNewStatus : Prop :=
  ∀ s : State,
    (s.status = .running → ∃ t, step s = .next t ∧ s.hostStep = some (t, t.status)) ∧
    (s.Terminal → s.hostStep = none)

/-! ## Memory (spec/20_memory.md) -/

/-- R43: `MemRead(addr, n)` raises `Unmapped` below the RAM, else `OutOfBounds` past it, else returns
`MEM[index] + MEM[index+1]*2^8 + ...` with `index = addr - RAM_BASE`. For every `n`, the rule's 1, 2, 4 and 8
among them (log entry 8); the widths 2 and 8 are the spec's decisions D4 and D6, the faults D7 and D8. -/
def Obligations.MemReadSumsBytes : Prop :=
  ∀ (s : State) (addr : Word) (n : Nat),
    (s.BelowRam addr → s.memRead addr n = .error (.unmapped addr)) ∧
    (s.PastRam addr n → s.memRead addr n = .error (.outOfBounds addr n)) ∧
    (s.InRam addr n → s.memRead addr n =
      .ok (∑ k ∈ Finset.range n, (s.memByte (addr.toNat - s.ramBase.val + k)).toNat * 2 ^ (8 * k)))

/-- R44: `MemWrite(addr, n, v)` raises `Unmapped` below the RAM, else `OutOfBounds` past it (then there is no
new state at all), else writes `MEM[index+k] <- v[8k+7:8k]` for `k` in 0 to `n-1` and changes nothing else.
The widths 1, 2 and 8 are the spec's decisions D4 to D6, the faults D7 and D8; every other `n` is log
entry 8. -/
def Obligations.MemWriteStoresBytes : Prop :=
  ∀ (s : State) (addr : Word) (n v : Nat), s.memOk = true →
    (s.BelowRam addr → s.memWrite addr n v = .error (.unmapped addr)) ∧
    (s.PastRam addr n → s.memWrite addr n v = .error (.outOfBounds addr n)) ∧
    (s.InRam addr n → ∃ t, s.memWrite addr n v = .ok t ∧
      (∀ k < n, t.memByte (addr.toNat - s.ramBase.val + k) = BitVec.ofNat 8 (v / 2 ^ (8 * k))) ∧
      s.SameButBytes t addr.toNat n)

/-- R61: a read after a write of the same bytes gives the low `8n` bits of what was written, and the bytes
outside are unchanged ("derived" in the spec; its source states the 32-bit case). -/
def Obligations.WriteThenReadRoundTrip : Prop :=
  ∀ (s t : State) (addr : Word) (n v : Nat), s.memOk = true → s.memWrite addr n v = .ok t →
    t.memRead addr n = .ok (v % 2 ^ (8 * n)) ∧
    ∀ j, j < addr.toNat - s.ramBase.val ∨ addr.toNat - s.ramBase.val + n ≤ j → t.memByte j = s.memByte j

/-- R45: little-endian for data and for fetch. After a word is stored, a byte load at offset `k` gives the
bits [8k+7:8k], a halfword load at offset `k` the bits [8k+15:8k] (the spec's inference, R45 "derived"), and
a fetch there the word itself. -/
def Obligations.WordIsLittleEndian : Prop :=
  ∀ (s t : State) (addr v : Word), s.memOk = true → s.store addr 32 v.toNat = .ok t →
    (∀ k < 4, t.load (addr + BitVec.ofNat 32 k) 8 = .ok (v.toNat / 2 ^ (8 * k) % 2 ^ 8)) ∧
    (∀ k < 3, t.load (addr + BitVec.ofNat 32 k) 16 = .ok (v.toNat / 2 ^ (8 * k) % 2 ^ 16)) ∧
    State.fetch { t with pc := addr } = .ok v

/-- R46: no access needs any alignment. A read of `n` bytes that all lie in the RAM succeeds at any address
and is the `n` single-byte reads at `addr, addr+1, ...` assembled little-endian. That it covers the fetch is the
spec's decision D15; every `n` is log entry 8. -/
def Obligations.MisalignedReadIsBytewise : Prop :=
  ∀ (s : State) (addr : Word) (n : Nat), s.InRam addr n →
    ∃ byte : Nat → Nat,
      (∀ k < n, s.memRead (addr + BitVec.ofNat 32 k) 1 = .ok (byte k)) ∧
      s.memRead addr n = .ok (∑ k ∈ Finset.range n, byte k * 2 ^ (8 * k))

/-- R49, R50, R51: which access raises which fault, for reads and writes alike. `Unmapped` looks at the
first byte's address only; `OutOfBounds` takes the sum in natural numbers; nothing else is raised; and no
access without a fault fails. Fault and natural-number sum are the spec's decisions D7 and D8;
every `n` is log entry 8. -/
def Obligations.AccessFaultsByFirstCheck : Prop :=
  ∀ (s : State) (addr : Word) (n v : Nat) (kind : FaultKind),
    (s.memRead addr n = .error kind ↔
      addr.toNat < s.ramBase.val ∧ kind = .unmapped addr ∨
      s.ramBase.val ≤ addr.toNat ∧ addr.toNat - s.ramBase.val + n > 4096 ∧ kind = .outOfBounds addr n) ∧
    (s.memWrite addr n v = .error kind ↔ s.memRead addr n = .error kind)

/-- R48: any width outside 8, 16, 32 and 64 bits raises `UnsupportedSize(width)` before any other check, for
loads and stores; the four widths are the accesses of 1, 2, 4 and 8 bytes. Decision D6 of the spec; no
instruction issues such a width. -/
def Obligations.UnsupportedWidthRejected : Prop :=
  ∀ (s : State) (addr : Word) (width v : Nat),
    (width ≠ 8 → width ≠ 16 → width ≠ 32 → width ≠ 64 →
      s.load addr width = .error (.unsupportedSize width) ∧
      s.store addr width v = .error (.unsupportedSize width)) ∧
    s.load addr 8 = s.memRead addr 1 ∧ s.load addr 16 = s.memRead addr 2 ∧
    s.load addr 32 = s.memRead addr 4 ∧ s.load addr 64 = s.memRead addr 8 ∧
    s.store addr 8 v = s.memWrite addr 1 v ∧ s.store addr 16 v = s.memWrite addr 2 v ∧
    s.store addr 32 v = s.memWrite addr 4 v ∧ s.store addr 64 v = s.memWrite addr 8 v

/-- R56: a store is seen by the fetch of the very next step, with no fence: when `sw` stores a word over the
next instruction's bytes and it decodes to an instruction, the next step runs that instruction. The spec
derives it (R56, decision D16). That the word may be the opcode-zero sentinel's, a term of `Instr`, is the
model's choice, log entry 6. The other stores and partial overlaps: `StoredBytesSeenByNextFetch`. -/
def Obligations.StoreSeenByNextFetch : Prop :=
  ∀ (s t : State) (rs1 rs2 : Reg) (imm : Word) (i : Instr), s.memOk = true → s.status = .running →
    s.x rs1 + imm = s.pc → s.InRam s.pc 4 → decode (s.x rs2) = .ok i →
    exec (.sw rs1 rs2 imm) s = .next t →
    t.fetch = .ok (s.x rs2) ∧ step t = exec i { t with pc := s.pc + 4#32 }

/-! ## Reset, host and state (spec/10_state.md, spec/70_reset_and_hazards.md) -/

/-- R191: the image fills the RAM from address `RAM_BASE` on, zero-padded or truncated to exactly 4096
bytes, without any error; on the all-zero RAM of the empty image the first step halts. The pc after that
halt is the spec's own inference (R107 "derived", decision D11). -/
def Obligations.ImageIsPaddedOrTruncated : Prop :=
  ∀ (base : Config.RamBase) (image : List Byte),
    (∀ k b, k < 4096 → image[k]? = some b →
      (State.construct base image).mem.read (base.val + k) = b ∧
      (State.construct base image).memByte k = b) ∧
    (∀ k, k < 4096 → image.length ≤ k → (State.construct base image).memByte k = 0#8) ∧
    State.construct base (image.take 4096) = State.construct base image ∧
    step (State.construct base []) = .next { State.construct base [] with
      pc := Config.resetVector base + 4#32, status := .halted }

/-- R190, R34: after reset every register is 0, the pc is `RAM_BASE` and the status `Running`. The reset
vector's value is the spec's decision D2, the status its construct (D10). -/
def Obligations.ConstructionClearsRegisters : Prop :=
  ∀ (base : Config.RamBase) (image : List Byte),
    (∀ r, (State.construct base image).x r = 0#32) ∧
    (State.construct base image).pc.toNat = base.val ∧
    (State.construct base image).status = .running ∧
    (State.construct base image).ramBase = base

/-- R199: a host write sets `MEM[k]` for any `0 <= k < 4096` and changes nothing else; the host then reads
the new byte. "Only between steps" is the spec's own choice (decision D19, log entry 9); that it holds in
a terminal status too is the model's (log entry 14). -/
def Obligations.HostWriteSetsOneByte : Prop :=
  ∀ (s : State) (k : Fin Config.memSize) (b : Byte), s.memOk = true →
    (s.hostWriteMem k b).hostReadMem k = b ∧
    s.SameButBytes (s.hostWriteMem k b) (s.ramBase.val + k.val) 1

/-- R20, R198: what the host can read is the complete state. Two states in order with the same `RAM_BASE`,
the same 32 registers, pc, status and 4096 bytes are the same state. The canonical form of the RAM, which
makes equal memories equal data, is the model's choice (log entry 4). -/
def Obligations.ObservationDeterminesState : Prop :=
  ∀ s t : State, s.memOk = true → t.memOk = true → t.ramBase = s.ramBase →
    (∀ r, t.hostReadX r = s.hostReadX r) → t.pc = s.pc → t.status = s.status →
    (∀ k, t.hostReadMem k = s.hostReadMem k) → t = s

/-- R22: register 0 reads as 0 in every state, a write of it changes nothing, and any other register
reads as what was written to it. That entry 0 has no storage is the spec's own choice (decision D3). -/
def Obligations.RegisterZeroIsConstant : Prop :=
  ∀ (s : State) (r : Reg) (v : Word),
    s.x 0#5 = 0#32 ∧ s.setX 0#5 v = s ∧ (r ≠ 0#5 → (s.setX r v).x r = v) ∧
    s.SameButReg (s.setX r v) r

/-- R142: the ALU's two operations are modulo 2^32, and the same bits result from the signed readings (in
the spec a fact from general knowledge, G9). -/
def Obligations.AluWrapsModulo : Prop :=
  ∀ a b : Word,
    (aluAdd a b).toNat = (a.toNat + b.toNat) % 2 ^ 32 ∧
    (aluSub a b).toNat = (a.toNat + 2 ^ 32 - b.toNat) % 2 ^ 32 ∧
    aluAdd a b = BitVec.ofInt 32 (a.toInt + b.toInt) ∧
    aluSub a b = BitVec.ofInt 32 (a.toInt - b.toInt)

/-! ## Loads (spec/41_loads.md)

Each statement: the words that are the instruction; the completion with its result and frame, wherever
the access lies in the RAM; and the two faults, which leave everything but the status unchanged. -/

/-- R121: `lb`. The two faults are the spec's decisions D7 and D8 (log entry 10). -/
def Obligations.LbLoadsSignExtendedByte : Prop :=
  (∀ raw : Word, raw &&& 0x0000707f#32 = 0x00000003#32 →
    decode raw = .ok (.lb (raw.extractLsb' 7 5) (raw.extractLsb' 15 5)
      ((raw.extractLsb' 20 12).signExtend 32))) ∧
  ∀ (rd rs1 : Reg) (imm addr : Word) (s : State), addr = s.x rs1 + imm →
    (s.InRam addr 1 → ∃ t, exec (.lb rd rs1 imm) s = .next t ∧ s.SameButReg t rd ∧
      (rd ≠ 0#5 → t.x rd = (s.mem.read addr.toNat).signExtend 32) ∧ (rd = 0#5 → t = s)) ∧
    (s.BelowRam addr → exec (.lb rd rs1 imm) s =
      .next { s with status := .faulted .execute (.unmapped addr) }) ∧
    (s.PastRam addr 1 → exec (.lb rd rs1 imm) s =
      .next { s with status := .faulted .execute (.outOfBounds addr 1) })

/-- R122: `lh`, completed by the spec's decision D4.
The two faults are the spec's decisions D7 and D8 (log entry 10). -/
def Obligations.LhLoadsSignExtendedHalfword : Prop :=
  (∀ raw : Word, raw &&& 0x0000707f#32 = 0x00001003#32 →
    decode raw = .ok (.lh (raw.extractLsb' 7 5) (raw.extractLsb' 15 5)
      ((raw.extractLsb' 20 12).signExtend 32))) ∧
  ∀ (rd rs1 : Reg) (imm addr : Word) (s : State), addr = s.x rs1 + imm →
    (s.InRam addr 2 → ∃ t, exec (.lh rd rs1 imm) s = .next t ∧ s.SameButReg t rd ∧
      (rd ≠ 0#5 → t.x rd = (s.mem.read (addr.toNat + 1) ++ s.mem.read addr.toNat).signExtend 32) ∧
      (rd = 0#5 → t = s)) ∧
    (s.BelowRam addr → exec (.lh rd rs1 imm) s =
      .next { s with status := .faulted .execute (.unmapped addr) }) ∧
    (s.PastRam addr 2 → exec (.lh rd rs1 imm) s =
      .next { s with status := .faulted .execute (.outOfBounds addr 2) })

/-- R123: `lw`. The two faults are the spec's decisions D7 and D8 (log entry 10). -/
def Obligations.LwLoadsWord : Prop :=
  (∀ raw : Word, raw &&& 0x0000707f#32 = 0x00002003#32 →
    decode raw = .ok (.lw (raw.extractLsb' 7 5) (raw.extractLsb' 15 5)
      ((raw.extractLsb' 20 12).signExtend 32))) ∧
  ∀ (rd rs1 : Reg) (imm addr : Word) (s : State), addr = s.x rs1 + imm →
    (s.InRam addr 4 → ∃ t, exec (.lw rd rs1 imm) s = .next t ∧ s.SameButReg t rd ∧
      (rd ≠ 0#5 → t.x rd = (s.mem.read (addr.toNat + 3) ++ s.mem.read (addr.toNat + 2) ++
        s.mem.read (addr.toNat + 1) ++ s.mem.read addr.toNat : Word)) ∧
      (rd = 0#5 → t = s)) ∧
    (s.BelowRam addr → exec (.lw rd rs1 imm) s =
      .next { s with status := .faulted .execute (.unmapped addr) }) ∧
    (s.PastRam addr 4 → exec (.lw rd rs1 imm) s =
      .next { s with status := .faulted .execute (.outOfBounds addr 4) })

/-- R124: `lbu`. The two faults are the spec's decisions D7 and D8 (log entry 10). -/
def Obligations.LbuLoadsZeroExtendedByte : Prop :=
  (∀ raw : Word, raw &&& 0x0000707f#32 = 0x00004003#32 →
    decode raw = .ok (.lbu (raw.extractLsb' 7 5) (raw.extractLsb' 15 5)
      ((raw.extractLsb' 20 12).signExtend 32))) ∧
  ∀ (rd rs1 : Reg) (imm addr : Word) (s : State), addr = s.x rs1 + imm →
    (s.InRam addr 1 → ∃ t, exec (.lbu rd rs1 imm) s = .next t ∧ s.SameButReg t rd ∧
      (rd ≠ 0#5 → t.x rd = (s.mem.read addr.toNat).setWidth 32) ∧ (rd = 0#5 → t = s)) ∧
    (s.BelowRam addr → exec (.lbu rd rs1 imm) s =
      .next { s with status := .faulted .execute (.unmapped addr) }) ∧
    (s.PastRam addr 1 → exec (.lbu rd rs1 imm) s =
      .next { s with status := .faulted .execute (.outOfBounds addr 1) })

/-- R125: `lhu`, completed by the spec's decision D4.
The two faults are the spec's decisions D7 and D8 (log entry 10). -/
def Obligations.LhuLoadsZeroExtendedHalfword : Prop :=
  (∀ raw : Word, raw &&& 0x0000707f#32 = 0x00005003#32 →
    decode raw = .ok (.lhu (raw.extractLsb' 7 5) (raw.extractLsb' 15 5)
      ((raw.extractLsb' 20 12).signExtend 32))) ∧
  ∀ (rd rs1 : Reg) (imm addr : Word) (s : State), addr = s.x rs1 + imm →
    (s.InRam addr 2 → ∃ t, exec (.lhu rd rs1 imm) s = .next t ∧ s.SameButReg t rd ∧
      (rd ≠ 0#5 → t.x rd = (s.mem.read (addr.toNat + 1) ++ s.mem.read addr.toNat).setWidth 32) ∧
      (rd = 0#5 → t = s)) ∧
    (s.BelowRam addr → exec (.lhu rd rs1 imm) s =
      .next { s with status := .faulted .execute (.unmapped addr) }) ∧
    (s.PastRam addr 2 → exec (.lhu rd rs1 imm) s =
      .next { s with status := .faulted .execute (.outOfBounds addr 2) })

/-! ## ALU instructions (spec/42_op_imm.md, spec/43_op.md) -/

/-- R130: `addi`, the sum modulo 2^32, never a fault. -/
def Obligations.AddiAddsImmediate : Prop :=
  (∀ raw : Word, raw &&& 0x0000707f#32 = 0x00000013#32 →
    decode raw = .ok (.addi (raw.extractLsb' 7 5) (raw.extractLsb' 15 5)
      ((raw.extractLsb' 20 12).signExtend 32))) ∧
  ∀ (rd rs1 : Reg) (imm : Word) (s : State),
    ∃ t, exec (.addi rd rs1 imm) s = .next t ∧ s.SameButReg t rd ∧
      (rd ≠ 0#5 → (t.x rd).toNat = ((s.x rs1).toNat + imm.toNat) % 2 ^ 32) ∧ (rd = 0#5 → t = s)

/-- R140: `add`, the sum modulo 2^32, never a fault. -/
def Obligations.AddAddsRegisters : Prop :=
  (∀ raw : Word, raw &&& 0xfe00707f#32 = 0x00000033#32 →
    decode raw = .ok (.add (raw.extractLsb' 7 5) (raw.extractLsb' 15 5) (raw.extractLsb' 20 5))) ∧
  ∀ (rd rs1 rs2 : Reg) (s : State),
    ∃ t, exec (.add rd rs1 rs2) s = .next t ∧ s.SameButReg t rd ∧
      (rd ≠ 0#5 → (t.x rd).toNat = ((s.x rs1).toNat + (s.x rs2).toNat) % 2 ^ 32) ∧ (rd = 0#5 → t = s)

/-- R141: `sub`, `x[rs1] - x[rs2]` modulo 2^32, never a fault. The operand order is general knowledge in
the spec (G2; log entry 7). -/
def Obligations.SubSubtractsRegisters : Prop :=
  (∀ raw : Word, raw &&& 0xfe00707f#32 = 0x40000033#32 →
    decode raw = .ok (.sub (raw.extractLsb' 7 5) (raw.extractLsb' 15 5) (raw.extractLsb' 20 5))) ∧
  ∀ (rd rs1 rs2 : Reg) (s : State),
    ∃ t, exec (.sub rd rs1 rs2) s = .next t ∧ s.SameButReg t rd ∧
      (rd ≠ 0#5 → (t.x rd).toNat = ((s.x rs1).toNat + 2 ^ 32 - (s.x rs2).toNat) % 2 ^ 32) ∧
      (rd = 0#5 → t = s)

/-! ## Stores (spec/44_stores.md) -/

/-- R151: `sb` stores the low 8 bits of `x[rs2]`; completed by the spec's decision D5.
The two faults are the spec's decisions D7 and D8 (log entry 10). -/
def Obligations.SbStoresLowByte : Prop :=
  (∀ raw : Word, raw &&& 0x0000707f#32 = 0x00000023#32 →
    decode raw = .ok (.sb (raw.extractLsb' 15 5) (raw.extractLsb' 20 5)
      ((raw.extractLsb' 25 7 ++ raw.extractLsb' 7 5).signExtend 32))) ∧
  ∀ (rs1 rs2 : Reg) (imm addr : Word) (s : State), addr = s.x rs1 + imm →
    (s.InRam addr 1 → ∃ t, exec (.sb rs1 rs2 imm) s = .next t ∧ s.SameButBytes t addr.toNat 1 ∧
      (s.memOk = true → t.mem.read addr.toNat = (s.x rs2).extractLsb' 0 8)) ∧
    (s.BelowRam addr → exec (.sb rs1 rs2 imm) s =
      .next { s with status := .faulted .execute (.unmapped addr) }) ∧
    (s.PastRam addr 1 → exec (.sb rs1 rs2 imm) s =
      .next { s with status := .faulted .execute (.outOfBounds addr 1) })

/-- R152: `sh` stores the low 16 bits of `x[rs2]`, little-endian; a store whose second byte lies outside
the RAM writes neither. Completed by the spec's decision D4.
The two faults are the spec's decisions D7 and D8 (log entry 10). -/
def Obligations.ShStoresLowHalfword : Prop :=
  (∀ raw : Word, raw &&& 0x0000707f#32 = 0x00001023#32 →
    decode raw = .ok (.sh (raw.extractLsb' 15 5) (raw.extractLsb' 20 5)
      ((raw.extractLsb' 25 7 ++ raw.extractLsb' 7 5).signExtend 32))) ∧
  ∀ (rs1 rs2 : Reg) (imm addr : Word) (s : State), addr = s.x rs1 + imm →
    (s.InRam addr 2 → ∃ t, exec (.sh rs1 rs2 imm) s = .next t ∧ s.SameButBytes t addr.toNat 2 ∧
      (s.memOk = true → ∀ k < 2, t.mem.read (addr.toNat + k) = (s.x rs2).extractLsb' (8 * k) 8)) ∧
    (s.BelowRam addr → exec (.sh rs1 rs2 imm) s =
      .next { s with status := .faulted .execute (.unmapped addr) }) ∧
    (s.PastRam addr 2 → exec (.sh rs1 rs2 imm) s =
      .next { s with status := .faulted .execute (.outOfBounds addr 2) })

/-- R153: `sw` stores the 32 bits of `x[rs2]`, little-endian; a store that would reach past the RAM writes
none of its bytes.
The two faults are the spec's decisions D7 and D8 (log entry 10). -/
def Obligations.SwStoresWord : Prop :=
  (∀ raw : Word, raw &&& 0x0000707f#32 = 0x00002023#32 →
    decode raw = .ok (.sw (raw.extractLsb' 15 5) (raw.extractLsb' 20 5)
      ((raw.extractLsb' 25 7 ++ raw.extractLsb' 7 5).signExtend 32))) ∧
  ∀ (rs1 rs2 : Reg) (imm addr : Word) (s : State), addr = s.x rs1 + imm →
    (s.InRam addr 4 → ∃ t, exec (.sw rs1 rs2 imm) s = .next t ∧ s.SameButBytes t addr.toNat 4 ∧
      (s.memOk = true → ∀ k < 4, t.mem.read (addr.toNat + k) = (s.x rs2).extractLsb' (8 * k) 8)) ∧
    (s.BelowRam addr → exec (.sw rs1 rs2 imm) s =
      .next { s with status := .faulted .execute (.unmapped addr) }) ∧
    (s.PastRam addr 4 → exec (.sw rs1 rs2 imm) s =
      .next { s with status := .faulted .execute (.outOfBounds addr 4) })

/-- R56: what the very next fetch reads after any of the three stores, wherever it lies in the RAM: each of
the four bytes at the pc is the stored byte where the store covers it and the byte as before elsewhere. The
spec derives it (R56, decision D16); `sb` and `sh` are completed by its decisions D5 and D4. -/
def Obligations.StoredBytesSeenByNextFetch : Prop :=
  ∀ (s t : State) (i : Instr) (rs1 rs2 : Reg) (imm addr : Word) (n : Nat), s.memOk = true →
    (i = .sb rs1 rs2 imm ∧ n = 1 ∨ i = .sh rs1 rs2 imm ∧ n = 2 ∨ i = .sw rs1 rs2 imm ∧ n = 4) →
    addr = s.x rs1 + imm → s.InRam addr n → s.InRam s.pc 4 → exec i s = .next t →
    ∃ raw, t.fetch = .ok raw ∧ ∀ k < 4, raw.extractLsb' (8 * k) 8 =
      if addr.toNat ≤ s.pc.toNat + k ∧ s.pc.toNat + k < addr.toNat + n
      then (s.x rs2).extractLsb' (8 * (s.pc.toNat + k - addr.toNat)) 8
      else s.mem.read (s.pc.toNat + k)
end

