-- ==== Sys2Proof/Laws/Decode.lean ====
section
/-! SUPPORT. The laws of the encoding: the bits of a placed field and of an immediate, the fields of a
format's word, a word rebuilt from its fields, what a match and mask test says of the fields, and the
decoder one opcode at a time. -/

namespace Sys2Proof

/-! ## Placed fields -/

theorem getLsbD_placeAt {w : Nat} (lo : Nat) (v : BitVec w) {i : Nat} (hi : i < 32) :
    (placeAt lo v).getLsbD i = (decide (lo ≤ i) && v.getLsbD (i - lo)) := by
  unfold placeAt
  rw [BitVec.getLsbD_shiftLeft, BitVec.getLsbD_setWidth]
  by_cases h2 : lo ≤ i
  · have : ¬ i < lo := by omega
    have h3 : i - lo < 32 := by omega
    simp only [hi, h2, this, h3, decide_true, decide_false, Bool.not_false, Bool.true_and]
  · have : i < lo := by omega
    simp only [h2, this, decide_true, decide_false, Bool.not_true, Bool.and_false, Bool.false_and]

theorem extract_placeAt_same {w : Nat} (lo : Nat) (v : BitVec w) (h : lo + w ≤ 32) :
    (placeAt lo v).extractLsb' lo w = v := by
  apply BitVec.eq_of_getLsbD_eq
  intro i hi
  rw [BitVec.getLsbD_extractLsb', getLsbD_placeAt lo v (by omega), Nat.add_sub_cancel_left]
  simp only [hi, Nat.le_add_right, decide_true, Bool.true_and]

theorem extract_placeAt_other {w : Nat} (lo lo' w' : Nat) (v : BitVec w) (h' : lo' + w' ≤ 32)
    (h : lo + w ≤ lo' ∨ lo' + w' ≤ lo) : (placeAt lo v).extractLsb' lo' w' = 0#w' := by
  apply BitVec.eq_of_getLsbD_eq
  intro i hi
  rw [BitVec.getLsbD_extractLsb', getLsbD_placeAt lo v (by omega), BitVec.getLsbD_zero]
  by_cases h2 : lo ≤ lo' + i
  · rw [BitVec.getLsbD_of_ge v _ (by omega), Bool.and_false, Bool.and_false]
  · simp only [h2, decide_false, Bool.false_and, Bool.and_false]

/-! ## Immediates -/

theorem getLsbD_immIOf (raw : Word) {i : Nat} (hi : i < 32) :
    (immIOf raw).getLsbD i = if i < 12 then raw.getLsbD (20 + i) else raw.getLsbD 31 := by
  unfold immIOf sext32
  rw [BitVec.getLsbD_signExtend, BitVec.msb_eq_getLsbD_last, BitVec.getLsbD_extractLsb',
    BitVec.getLsbD_extractLsb']
  split <;> simp only [decide_true, Bool.true_and, *]
  rfl

theorem getLsbD_immSOf (raw : Word) {i : Nat} (hi : i < 32) :
    (immSOf raw).getLsbD i =
      if i < 5 then raw.getLsbD (7 + i)
      else if i < 12 then raw.getLsbD (20 + i) else raw.getLsbD 31 := by
  unfold immSOf sext32
  rw [BitVec.getLsbD_signExtend, BitVec.msb_eq_getLsbD_last, BitVec.getLsbD_append,
    BitVec.getLsbD_append]
  simp only [BitVec.getLsbD_extractLsb', hi, decide_true, Bool.true_and]
  by_cases h5 : i < 5
  · simp [h5, show i < 7 + 5 by omega]
  · by_cases h12 : i < 12
    · simp only [h5, h12, decide_true, decide_false, if_true, if_false, show i - 5 < 7 by omega,
        show 25 + (i - 5) = 20 + i by omega, Bool.true_and]
    · simp only [h5, h12, if_false]
      rfl

/-- A well-formed immediate is the sign extension of its low 12 bits. -/
theorem sext32_low12 {imm : Word} (h : fitsImm12 imm = true) :
    sext32 (imm.extractLsb' 0 12) = imm := by
  have h := of_decide_eq_true h
  have hlt := imm.isLt
  apply BitVec.eq_of_toInt_eq
  unfold sext32
  rw [BitVec.toInt_signExtend]
  rw [BitVec.toInt_eq_toNat_bmod, BitVec.toInt_eq_toNat_bmod, BitVec.extractLsb'_toNat] at *
  simp [Int.bmod] at *
  omega

/-- A sign-extended 12-bit value is a well-formed immediate. -/
theorem fitsImm12_sext32 (v : BitVec 12) : fitsImm12 (sext32 v) = true := by
  have h1 := BitVec.le_toInt v
  have h2 := BitVec.toInt_lt (x := v)
  apply decide_eq_true
  unfold sext32
  rw [BitVec.toInt_signExtend_of_le (by omega)]
  omega

theorem fitsImm12_immIOf (raw : Word) : fitsImm12 (immIOf raw) = true := fitsImm12_sext32 _

theorem fitsImm12_immSOf (raw : Word) : fitsImm12 (immSOf raw) = true := fitsImm12_sext32 _

/-! ## The fields of a format's word -/

section Fields

variable (o : BitVec 7) (rd rs1 rs2 : Reg) (imm : Word) (f3 : BitVec 3) (f7 : BitVec 7)

theorem extract_rType {lo w : Nat} : (Format.word (.rType o rd rs1 rs2 f3 f7)).extractLsb' lo w =
    (placeAt 25 f7).extractLsb' lo w ||| (placeAt 20 rs2).extractLsb' lo w |||
      (placeAt 15 rs1).extractLsb' lo w ||| (placeAt 12 f3).extractLsb' lo w |||
      (placeAt 7 rd).extractLsb' lo w ||| (placeAt 0 o).extractLsb' lo w := by
  simp only [Format.word, BitVec.extractLsb'_or]

theorem extract_iType {lo w : Nat} : (Format.word (.iType o rd rs1 imm f3)).extractLsb' lo w =
    (placeAt 20 (imm.extractLsb' 0 12)).extractLsb' lo w ||| (placeAt 15 rs1).extractLsb' lo w |||
      (placeAt 12 f3).extractLsb' lo w ||| (placeAt 7 rd).extractLsb' lo w |||
      (placeAt 0 o).extractLsb' lo w := by
  simp only [Format.word, BitVec.extractLsb'_or]

theorem extract_sType {lo w : Nat} : (Format.word (.sType o rs1 rs2 imm f3)).extractLsb' lo w =
    (placeAt 25 (imm.extractLsb' 5 7)).extractLsb' lo w ||| (placeAt 20 rs2).extractLsb' lo w |||
      (placeAt 15 rs1).extractLsb' lo w ||| (placeAt 12 f3).extractLsb' lo w |||
      (placeAt 7 (imm.extractLsb' 0 5)).extractLsb' lo w ||| (placeAt 0 o).extractLsb' lo w := by
  simp only [Format.word, BitVec.extractLsb'_or]

@[simp] theorem opcodeOf_rType : opcodeOf (Format.word (.rType o rd rs1 rs2 f3 f7)) = o := by
  simp [opcodeOf, extract_rType, extract_placeAt_same, extract_placeAt_other]
@[simp] theorem rdOf_rType : rdOf (Format.word (.rType o rd rs1 rs2 f3 f7)) = rd := by
  simp [rdOf, extract_rType, extract_placeAt_same, extract_placeAt_other]
@[simp] theorem rs1Of_rType : rs1Of (Format.word (.rType o rd rs1 rs2 f3 f7)) = rs1 := by
  simp [rs1Of, extract_rType, extract_placeAt_same, extract_placeAt_other]
@[simp] theorem rs2Of_rType : rs2Of (Format.word (.rType o rd rs1 rs2 f3 f7)) = rs2 := by
  simp [rs2Of, extract_rType, extract_placeAt_same, extract_placeAt_other]
@[simp] theorem funct3Of_rType : funct3Of (Format.word (.rType o rd rs1 rs2 f3 f7)) = f3 := by
  simp [funct3Of, extract_rType, extract_placeAt_same, extract_placeAt_other]
@[simp] theorem funct7Of_rType : funct7Of (Format.word (.rType o rd rs1 rs2 f3 f7)) = f7 := by
  simp [funct7Of, extract_rType, extract_placeAt_same, extract_placeAt_other]

@[simp] theorem opcodeOf_iType : opcodeOf (Format.word (.iType o rd rs1 imm f3)) = o := by
  simp [opcodeOf, extract_iType, extract_placeAt_same, extract_placeAt_other]
@[simp] theorem rdOf_iType : rdOf (Format.word (.iType o rd rs1 imm f3)) = rd := by
  simp [rdOf, extract_iType, extract_placeAt_same, extract_placeAt_other]
@[simp] theorem rs1Of_iType : rs1Of (Format.word (.iType o rd rs1 imm f3)) = rs1 := by
  simp [rs1Of, extract_iType, extract_placeAt_same, extract_placeAt_other]
@[simp] theorem funct3Of_iType : funct3Of (Format.word (.iType o rd rs1 imm f3)) = f3 := by
  simp [funct3Of, extract_iType, extract_placeAt_same, extract_placeAt_other]
theorem immIOf_iType (h : fitsImm12 imm = true) :
    immIOf (Format.word (.iType o rd rs1 imm f3)) = imm := by
  rw [immIOf, extract_iType]
  simpa [extract_placeAt_same, extract_placeAt_other] using sext32_low12 h

@[simp] theorem opcodeOf_sType : opcodeOf (Format.word (.sType o rs1 rs2 imm f3)) = o := by
  simp [opcodeOf, extract_sType, extract_placeAt_same, extract_placeAt_other]
@[simp] theorem rs1Of_sType : rs1Of (Format.word (.sType o rs1 rs2 imm f3)) = rs1 := by
  simp [rs1Of, extract_sType, extract_placeAt_same, extract_placeAt_other]
@[simp] theorem rs2Of_sType : rs2Of (Format.word (.sType o rs1 rs2 imm f3)) = rs2 := by
  simp [rs2Of, extract_sType, extract_placeAt_same, extract_placeAt_other]
@[simp] theorem funct3Of_sType : funct3Of (Format.word (.sType o rs1 rs2 imm f3)) = f3 := by
  simp [funct3Of, extract_sType, extract_placeAt_same, extract_placeAt_other]
theorem immSOf_sType (h : fitsImm12 imm = true) :
    immSOf (Format.word (.sType o rs1 rs2 imm f3)) = imm := by
  have hcat : imm.extractLsb' 5 7 ++ imm.extractLsb' 0 5 = imm.extractLsb' 0 12 := by
    apply BitVec.eq_of_getLsbD_eq
    intro i hi
    rw [BitVec.getLsbD_append]
    simp only [BitVec.getLsbD_extractLsb']
    by_cases h5 : i < 5
    · simp [h5, show i < 12 by omega]
    · simp [h5, show i < 12 by omega, show i - 5 < 7 by omega, show 5 + (i - 5) = i by omega]
  rw [immSOf, extract_sType, extract_sType]
  rw [extract_placeAt_same 25 _ (by omega), extract_placeAt_same 7 _ (by omega)]
  simp only [extract_placeAt_other (w := 7) 25 7 5 _ (by omega) (by omega),
    extract_placeAt_other (w := 5) 20 25 7 _ (by omega) (by omega),
    extract_placeAt_other (w := 5) 20 7 5 _ (by omega) (by omega),
    extract_placeAt_other (w := 5) 15 25 7 _ (by omega) (by omega),
    extract_placeAt_other (w := 5) 15 7 5 _ (by omega) (by omega),
    extract_placeAt_other (w := 3) 12 25 7 _ (by omega) (by omega),
    extract_placeAt_other (w := 3) 12 7 5 _ (by omega) (by omega),
    extract_placeAt_other (w := 5) 7 25 7 _ (by omega) (by omega),
    extract_placeAt_other (w := 7) 0 25 7 _ (by omega) (by omega),
    extract_placeAt_other (w := 7) 0 7 5 _ (by omega) (by omega), BitVec.or_zero, BitVec.zero_or]
  rw [hcat]
  exact sext32_low12 h

@[simp] theorem opcodeOf_placeAt (rest : BitVec 25) : opcodeOf (placeAt 7 rest) = 0#7 :=
  extract_placeAt_other 7 0 7 rest (by omega) (by omega)
@[simp] theorem restOf_placeAt (rest : BitVec 25) : restOf (placeAt 7 rest) = rest :=
  extract_placeAt_same 7 rest (by omega)

end Fields

/-! ## A word rebuilt from its fields -/

variable (raw : Word)

theorem word_of_rType_fields : Format.word (.rType (opcodeOf raw) (rdOf raw) (rs1Of raw) (rs2Of raw)
    (funct3Of raw) (funct7Of raw)) = raw := by
  apply BitVec.eq_of_getLsbD_eq
  intro i hi
  simp only [Format.word, BitVec.getLsbD_or, getLsbD_placeAt _ _ hi, BitVec.getLsbD_extractLsb',
    opcodeOf, rdOf, rs1Of, rs2Of, funct3Of, funct7Of]
  interval_cases i <;> simp [-BitVec.getLsbD_eq_getElem]

theorem word_of_iType_fields : Format.word (.iType (opcodeOf raw) (rdOf raw) (rs1Of raw) (immIOf raw)
    (funct3Of raw)) = raw := by
  apply BitVec.eq_of_getLsbD_eq
  intro i hi
  simp only [Format.word, BitVec.getLsbD_or, getLsbD_placeAt _ _ hi, BitVec.getLsbD_extractLsb',
    opcodeOf, rdOf, rs1Of, funct3Of]
  interval_cases i <;> simp [getLsbD_immIOf, -BitVec.getLsbD_eq_getElem]

theorem word_of_sType_fields : Format.word (.sType (opcodeOf raw) (rs1Of raw) (rs2Of raw) (immSOf raw)
    (funct3Of raw)) = raw := by
  apply BitVec.eq_of_getLsbD_eq
  intro i hi
  simp only [Format.word, BitVec.getLsbD_or, getLsbD_placeAt _ _ hi, BitVec.getLsbD_extractLsb',
    opcodeOf, rs1Of, rs2Of, funct3Of]
  interval_cases i <;> simp [getLsbD_immSOf, -BitVec.getLsbD_eq_getElem]

theorem placeAt_restOf {raw : Word} (h : opcodeOf raw = 0#7) : placeAt 7 (restOf raw) = raw := by
  apply BitVec.eq_of_getLsbD_eq
  intro i hi
  rw [getLsbD_placeAt _ _ hi, restOf, BitVec.getLsbD_extractLsb']
  have hb := congrArg (fun v : BitVec 7 => v.getLsbD i) h
  simp only [opcodeOf, BitVec.getLsbD_extractLsb', BitVec.getLsbD_zero, Nat.zero_add] at hb
  by_cases h7 : i < 7
  · simp only [h7, decide_true, Bool.true_and] at hb
    simp only [hb, show ¬ 7 ≤ i by omega, decide_false, Bool.false_and]
  · simp only [show 7 ≤ i by omega, show i - 7 < 25 by omega, show 7 + (i - 7) = i by omega,
      decide_true, Bool.true_and]

/-! ## Match and mask -/

/-- Where a masked word agrees with `v` bit by bit on the bits the mask selects. -/
theorem and_mask_of_bits {m v : Word} (h : ∀ i < 32, m.getLsbD i = true → raw.getLsbD i = v.getLsbD i)
    (hv : v &&& m = v) : raw &&& m = v := by
  rw [← hv]
  apply BitVec.eq_of_getLsbD_eq
  intro i hi
  rw [BitVec.getLsbD_and, BitVec.getLsbD_and]
  cases hm : m.getLsbD i with
  | false => rw [Bool.and_false, Bool.and_false]
  | true => rw [h i hi hm]

theorem bit_of_extract {raw v : Word} {lo w : Nat} (h : raw.extractLsb' lo w = v.extractLsb' lo w)
    {i : Nat} (h1 : lo ≤ i) (h2 : i < lo + w) : raw.getLsbD i = v.getLsbD i := by
  have hb := congrArg (fun u : BitVec w => u.getLsbD (i - lo)) h
  simpa only [BitVec.getLsbD_extractLsb', show i - lo < w by omega, show lo + (i - lo) = i by omega,
    decide_true, Bool.true_and] using hb

theorem bits_of_mask_7f {i : Nat} (hi : i < 32) (h : (0x7f#32).getLsbD i = true) : i < 7 := by
  by_contra hc
  interval_cases i <;> first | omega | exact absurd h (by decide)

theorem bits_of_mask_707f {i : Nat} (hi : i < 32) (h : (0x707f#32).getLsbD i = true) :
    i < 7 ∨ (12 ≤ i ∧ i < 15) := by
  by_contra hc
  interval_cases i <;> first | omega | exact absurd h (by decide)

theorem bits_of_mask_fe00707f {i : Nat} (hi : i < 32) (h : (0xfe00707f#32).getLsbD i = true) :
    i < 7 ∨ (12 ≤ i ∧ i < 15) ∨ 25 ≤ i := by
  by_contra hc
  interval_cases i <;> first | omega | exact absurd h (by decide)

theorem mask_7f_iff {v : Word} (hv : v &&& 0x7f#32 = v) :
    raw &&& 0x7f#32 = v ↔ opcodeOf raw = opcodeOf v := by
  constructor
  · intro h
    unfold opcodeOf
    rw [← h, BitVec.extractLsb'_and]
    exact BitVec.and_allOnes.symm
  · exact fun h => and_mask_of_bits raw
      (fun i hi hm => bit_of_extract h (Nat.zero_le i) (by have := bits_of_mask_7f hi hm; omega)) hv

theorem mask_707f_iff {v : Word} (hv : v &&& 0x707f#32 = v) :
    raw &&& 0x707f#32 = v ↔ opcodeOf raw = opcodeOf v ∧ funct3Of raw = funct3Of v := by
  constructor
  · intro h
    unfold opcodeOf funct3Of
    rw [← h, BitVec.extractLsb'_and, BitVec.extractLsb'_and]
    exact ⟨BitVec.and_allOnes.symm, BitVec.and_allOnes.symm⟩
  · rintro ⟨h1, h2⟩
    refine and_mask_of_bits raw (fun i hi hm => ?_) hv
    rcases bits_of_mask_707f hi hm with h | h
    · exact bit_of_extract h1 (Nat.zero_le i) (by omega)
    · exact bit_of_extract h2 h.1 (by omega)

theorem mask_fe00707f_iff {v : Word} (hv : v &&& 0xfe00707f#32 = v) :
    raw &&& 0xfe00707f#32 = v ↔
      opcodeOf raw = opcodeOf v ∧ funct3Of raw = funct3Of v ∧ funct7Of raw = funct7Of v := by
  constructor
  · intro h
    unfold opcodeOf funct3Of funct7Of
    rw [← h, BitVec.extractLsb'_and, BitVec.extractLsb'_and, BitVec.extractLsb'_and]
    exact ⟨BitVec.and_allOnes.symm, BitVec.and_allOnes.symm, BitVec.and_allOnes.symm⟩
  · rintro ⟨h1, h2, h3⟩
    refine and_mask_of_bits raw (fun i hi hm => ?_) hv
    rcases bits_of_mask_fe00707f hi hm with h | h | h
    · exact bit_of_extract h1 (Nat.zero_le i) (by omega)
    · exact bit_of_extract h2 h.1 (by omega)
    · exact bit_of_extract h3 h (by omega)

/-! ## The decoder, one opcode at a time -/

/-- The instruction selected, or the illegal function code of the word. -/
def ofSelect (raw : Word) : Option Instr → Except Reject Instr
  | some i => .ok i
  | none => .error (.illegalInstruction raw)

variable {raw : Word}

theorem decode_zero (h : opcodeOf raw = 0#7) : decode raw = .ok (.opcodeZero (restOf raw)) := by
  simp [decode, decodeFormat, h]

theorem decode_load (h : opcodeOf raw = 0x03#7) :
    decode raw = ofSelect raw (selectLoad (rdOf raw) (rs1Of raw) (immIOf raw) (funct3Of raw)) := by
  simp only [decode, decodeFormat, h, select]
  simp only [show ¬ (0x03#7 = 0x00#7) by decide, true_or, if_true, if_false]
  cases selectLoad (rdOf raw) (rs1Of raw) (immIOf raw) (funct3Of raw) <;> rfl

theorem decode_opImm (h : opcodeOf raw = 0x13#7) :
    decode raw = ofSelect raw (selectOpImm (rdOf raw) (rs1Of raw) (immIOf raw) (funct3Of raw)) := by
  simp only [decode, decodeFormat, h, select]
  simp only [show ¬ (0x13#7 = 0x00#7) by decide, show ¬ (0x13#7 = 0x03#7) by decide, or_true, if_true,
    if_false]
  cases selectOpImm (rdOf raw) (rs1Of raw) (immIOf raw) (funct3Of raw) <;> rfl

theorem decode_store (h : opcodeOf raw = 0x23#7) :
    decode raw = ofSelect raw (selectStore (rs1Of raw) (rs2Of raw) (immSOf raw) (funct3Of raw)) := by
  simp only [decode, decodeFormat, h, select]
  simp only [show ¬ (0x23#7 = 0x00#7) by decide, show ¬ (0x23#7 = 0x03#7) by decide,
    show ¬ (0x23#7 = 0x13#7) by decide, or_false, if_true, if_false]
  cases selectStore (rs1Of raw) (rs2Of raw) (immSOf raw) (funct3Of raw) <;> rfl

theorem decode_op (h : opcodeOf raw = 0x33#7) :
    decode raw =
      ofSelect raw (selectOp (rdOf raw) (rs1Of raw) (rs2Of raw) (funct3Of raw) (funct7Of raw)) := by
  simp only [decode, decodeFormat, h, select]
  simp only [show ¬ (0x33#7 = 0x00#7) by decide, show ¬ (0x33#7 = 0x03#7) by decide,
    show ¬ (0x33#7 = 0x13#7) by decide, show ¬ (0x33#7 = 0x23#7) by decide, or_false, if_true, if_false]
  cases selectOp (rdOf raw) (rs1Of raw) (rs2Of raw) (funct3Of raw) (funct7Of raw) <;> rfl

theorem decode_illegalOpcode (h0 : opcodeOf raw ≠ 0x00#7) (h1 : opcodeOf raw ≠ 0x03#7)
    (h2 : opcodeOf raw ≠ 0x13#7) (h3 : opcodeOf raw ≠ 0x23#7) (h4 : opcodeOf raw ≠ 0x33#7) :
    decode raw = .error (.illegalOpcode raw) := by
  simp [decode, decodeFormat, h0, h1, h2, h3, h4]

/-- The decoder's answer for each of the six cases of the opcode. -/
theorem decode_cases (raw : Word) :
    (opcodeOf raw = 0x00#7 ∧ decode raw = .ok (.opcodeZero (restOf raw))) ∨
    (opcodeOf raw = 0x03#7 ∧
      decode raw = ofSelect raw (selectLoad (rdOf raw) (rs1Of raw) (immIOf raw) (funct3Of raw))) ∨
    (opcodeOf raw = 0x13#7 ∧
      decode raw = ofSelect raw (selectOpImm (rdOf raw) (rs1Of raw) (immIOf raw) (funct3Of raw))) ∨
    (opcodeOf raw = 0x23#7 ∧
      decode raw = ofSelect raw (selectStore (rs1Of raw) (rs2Of raw) (immSOf raw) (funct3Of raw))) ∨
    (opcodeOf raw = 0x33#7 ∧ decode raw =
      ofSelect raw (selectOp (rdOf raw) (rs1Of raw) (rs2Of raw) (funct3Of raw) (funct7Of raw))) ∨
    ((opcodeOf raw ≠ 0x00#7 ∧ opcodeOf raw ≠ 0x03#7 ∧ opcodeOf raw ≠ 0x13#7 ∧ opcodeOf raw ≠ 0x23#7 ∧
      opcodeOf raw ≠ 0x33#7) ∧ decode raw = .error (.illegalOpcode raw)) := by
  by_cases h0 : opcodeOf raw = 0x00#7
  · exact .inl ⟨h0, decode_zero h0⟩
  by_cases h1 : opcodeOf raw = 0x03#7
  · exact .inr (.inl ⟨h1, decode_load h1⟩)
  by_cases h2 : opcodeOf raw = 0x13#7
  · exact .inr (.inr (.inl ⟨h2, decode_opImm h2⟩))
  by_cases h3 : opcodeOf raw = 0x23#7
  · exact .inr (.inr (.inr (.inl ⟨h3, decode_store h3⟩)))
  by_cases h4 : opcodeOf raw = 0x33#7
  · exact .inr (.inr (.inr (.inr (.inl ⟨h4, decode_op h4⟩))))
  exact .inr (.inr (.inr (.inr (.inr ⟨⟨h0, h1, h2, h3, h4⟩, decode_illegalOpcode h0 h1 h2 h3 h4⟩))))

theorem ofSelect_eq_ok {o : Option Instr} {i : Instr} (h : ofSelect raw o = .ok i) : o = some i := by
  cases o with
  | none => cases h
  | some j => cases h; rfl

/-- A word that decodes holds opcode zero or a format whose function code selects the instruction. -/
theorem decode_ok_cases {i : Instr} (h : decode raw = .ok i) :
    (decodeFormat raw = .opcodeZero ∧ i = .opcodeZero (restOf raw)) ∨
      ∃ f, decodeFormat raw = .format f ∧ select f = some i := by
  unfold decode at h
  split at h
  · next hf => cases h; exact .inl ⟨hf, rfl⟩
  · cases h
  · next f hf =>
    split at h
    · next j hs => cases h; exact .inr ⟨f, hf, hs⟩
    · cases h

/-- A word that is rejected has an illegal opcode, or a format whose function code selects nothing. -/
theorem decode_error_cases {j : Reject} (h : decode raw = .error j) :
    (decodeFormat raw = .illegalOpcode raw ∧ j = .illegalOpcode raw) ∨
      ∃ f, decodeFormat raw = .format f ∧ select f = none ∧ j = .illegalInstruction raw := by
  unfold decode at h
  split at h
  · cases h
  · next r hf =>
    have hr : r = raw := by
      unfold decodeFormat at hf
      split_ifs at hf
      cases hf; rfl
    cases h
    subst hr
    exact .inl ⟨hf, rfl⟩
  · next f hf =>
    split at h
    · cases h
    · next hs => cases h; exact .inr ⟨f, hf, hs, rfl⟩

theorem select_ne_opcodeZero {f : Format} {i : Instr} (h : select f = some i) (rest : BitVec 25) :
    i ≠ .opcodeZero rest := by
  rintro rfl
  cases f <;> simp only [select, selectLoad, selectStore, selectOp, selectOpImm] at h <;>
    split_ifs at h <;> cases h

theorem decodeFormat_opcodeZero_iff : decodeFormat raw = .opcodeZero ↔ opcodeOf raw = 0x00#7 := by
  unfold decodeFormat
  split_ifs with h <;> simp [h]

end Sys2Proof
end

