-- ==== Sys2Proof/Laws/Memory.lean ====
section
/-! SUPPORT. The laws of the byte store: what a read gives after a write, that every operation keeps the
canonical form and the range of addresses, and that a canonical store is determined by its bytes. -/

namespace Sys2Proof.Machine

@[simp] theorem Memory.read_nil (a : Nat) : Memory.read [] a = Memory.unlisted := rfl

@[simp] theorem Memory.wfFrom_nil (lo : Nat) : Memory.wfFrom lo [] = true := rfl

theorem Memory.read_cons (k a : Nat) (b : Byte) (m : Memory) :
    Memory.read ((k, b) :: m) a = if k = a then b else Memory.read m a := rfl

theorem Memory.wfFrom_cons {lo k : Nat} {b : Byte} {m : Memory} :
    Memory.wfFrom lo ((k, b) :: m) = true ↔
      lo ≤ k ∧ b ≠ Memory.unlisted ∧ Memory.wfFrom (k + 1) m = true := by
  simp [Memory.wfFrom, and_assoc]

theorem Memory.wfFrom_mono {lo lo' : Nat} {m : Memory} (h : Memory.wfFrom lo m = true)
    (hle : lo' ≤ lo) : Memory.wfFrom lo' m = true := by
  cases m with
  | nil => rfl
  | cons c m =>
    obtain ⟨k, b⟩ := c
    rw [Memory.wfFrom_cons] at h ⊢
    exact ⟨by omega, h.2⟩

/-- A canonical store reads as unlisted below its first address. -/
theorem Memory.read_below {lo a : Nat} {m : Memory} (h : Memory.wfFrom lo m = true) (ha : a < lo) :
    m.read a = Memory.unlisted := by
  induction m generalizing lo with
  | nil => rfl
  | cons c m ih =>
    obtain ⟨k, b⟩ := c
    rw [Memory.wfFrom_cons] at h
    rw [Memory.read_cons, if_neg (by omega)]
    exact ih h.2.2 (by omega)

/-! ## Writing one byte -/

theorem Memory.read_write_same {lo : Nat} {m : Memory} (h : Memory.wfFrom lo m = true) (a : Nat)
    (v : Byte) : (m.write a v).read a = v := by
  induction m generalizing lo with
  | nil =>
    by_cases hv : v = Memory.unlisted <;> simp [Memory.write, Memory.read, hv]
  | cons c m ih =>
    obtain ⟨k, b⟩ := c
    rw [Memory.wfFrom_cons] at h
    unfold Memory.write
    split_ifs with h1 h2 h3 h4
    · subst h2
      rw [Memory.read_cons, if_neg (by omega)]
      exact Memory.read_below h.2.2 (by omega)
    · simp [Memory.read_cons]
    · subst h3 h4
      exact Memory.read_below h.2.2 (by omega)
    · simp [Memory.read_cons]
    · rw [Memory.read_cons, if_neg (fun e => h3 e.symm)]
      exact ih h.2.2

theorem Memory.read_write_other {m : Memory} {a a' : Nat} (hne : a' ≠ a) (v : Byte) :
    (m.write a v).read a' = m.read a' := by
  induction m with
  | nil =>
    by_cases hv : v = Memory.unlisted
    · simp [Memory.write, hv]
    · simpa [Memory.write, hv, Memory.read_cons] using fun e => hne e.symm
  | cons c m ih =>
    obtain ⟨k, b⟩ := c
    unfold Memory.write
    split_ifs with h1 h2 h3 h4
    · rfl
    · rw [Memory.read_cons, if_neg (fun e => hne e.symm)]
    · rw [Memory.read_cons, if_neg (by omega)]
    · rw [Memory.read_cons, Memory.read_cons, if_neg (fun e => hne e.symm), if_neg (by omega)]
    · rw [Memory.read_cons, Memory.read_cons, ih]

theorem Memory.wfFrom_write {lo a : Nat} {m : Memory} (h : Memory.wfFrom lo m = true) (ha : lo ≤ a)
    (v : Byte) : Memory.wfFrom lo (m.write a v) = true := by
  induction m generalizing lo with
  | nil =>
    by_cases hv : v = Memory.unlisted <;> simp [Memory.write, Memory.wfFrom, hv, ha]
  | cons c m ih =>
    obtain ⟨k, b⟩ := c
    have h' := Memory.wfFrom_cons.mp h
    unfold Memory.write
    split_ifs with h1 h2 h3 h4
    · exact h
    · exact Memory.wfFrom_cons.mpr ⟨ha, h2, Memory.wfFrom_cons.mpr ⟨by omega, h'.2⟩⟩
    · exact Memory.wfFrom_mono h'.2.2 (by omega)
    · exact Memory.wfFrom_cons.mpr ⟨ha, h4, by rw [h3]; exact h'.2.2⟩
    · exact Memory.wfFrom_cons.mpr ⟨h'.1, h'.2.1, ih h'.2.2 (by omega)⟩

theorem Memory.wf_write {m : Memory} (h : m.wf = true) (a : Nat) (v : Byte) :
    (m.write a v).wf = true := Memory.wfFrom_write h (Nat.zero_le a) v

theorem Memory.within_cons {lo hi k : Nat} {b : Byte} {m : Memory} :
    Memory.within lo hi ((k, b) :: m) = true ↔
      (lo ≤ k ∧ k < hi) ∧ Memory.within lo hi m = true := by
  simp [Memory.within]

theorem Memory.within_write {lo hi a : Nat} {m : Memory} (h : m.within lo hi = true) (h1 : lo ≤ a)
    (h2 : a < hi) (v : Byte) : (m.write a v).within lo hi = true := by
  induction m with
  | nil =>
    by_cases hv : v = Memory.unlisted <;> simp [Memory.write, Memory.within, hv, h1, h2]
  | cons c m ih =>
    obtain ⟨k, b⟩ := c
    have h' := Memory.within_cons.mp h
    unfold Memory.write
    split_ifs
    · exact h
    · exact Memory.within_cons.mpr ⟨⟨h1, h2⟩, h⟩
    · exact h'.2
    · exact Memory.within_cons.mpr ⟨⟨h1, h2⟩, h'.2⟩
    · exact Memory.within_cons.mpr ⟨h'.1, ih h'.2⟩

/-! ## Reading and writing a run of bytes -/

@[simp] theorem Memory.readBytes_length (m : Memory) (a n : Nat) :
    (m.readBytes a n).length = n := by
  induction n generalizing a with
  | zero => rfl
  | succ n ih => simp [Memory.readBytes, ih]

theorem Memory.readBytes_congr {m m' : Memory} {a n : Nat}
    (h : ∀ k < n, m.read (a + k) = m'.read (a + k)) : m.readBytes a n = m'.readBytes a n := by
  induction n generalizing a with
  | zero => rfl
  | succ n ih =>
    rw [Memory.readBytes, Memory.readBytes]
    congr 1
    · exact h 0 (by omega)
    · refine ih fun k hk => ?_
      have := h (k + 1) (by omega)
      rwa [show a + (k + 1) = a + 1 + k by omega] at this

theorem Memory.read_writeBytes_outside {m : Memory} {a a' : Nat} {bs : List Byte}
    (h : a' < a ∨ a + bs.length ≤ a') : (m.writeBytes a bs).read a' = m.read a' := by
  induction bs generalizing m a with
  | nil => rfl
  | cons b bs ih =>
    rw [List.length_cons] at h
    rw [Memory.writeBytes, ih (by omega), Memory.read_write_other (by omega)]

theorem Memory.wf_writeBytes {m : Memory} (h : m.wf = true) (a : Nat) (bs : List Byte) :
    (m.writeBytes a bs).wf = true := by
  induction bs generalizing m a with
  | nil => exact h
  | cons b bs ih => exact ih (Memory.wf_write h a b) (a + 1)

theorem Memory.within_writeBytes {lo hi a : Nat} {m : Memory} {bs : List Byte}
    (h : m.within lo hi = true) (h1 : lo ≤ a) (h2 : a + bs.length ≤ hi) :
    (m.writeBytes a bs).within lo hi = true := by
  induction bs generalizing m a with
  | nil => exact h
  | cons b bs ih =>
    rw [List.length_cons] at h2
    exact ih (Memory.within_write h h1 (by omega) b) (by omega) (by omega)

theorem Memory.readBytes_writeBytes {m : Memory} (h : m.wf = true) (a : Nat) (bs : List Byte) :
    (m.writeBytes a bs).readBytes a bs.length = bs := by
  induction bs generalizing m a with
  | nil => rfl
  | cons b bs ih =>
    rw [List.length_cons, Memory.readBytes, Memory.writeBytes, ih (Memory.wf_write h a b),
      Memory.read_writeBytes_outside (by omega), Memory.read_write_same h]

/-! ## Loading an image -/

theorem Memory.wfFrom_ofImage (a : Nat) (bs : List Byte) :
    Memory.wfFrom a (Memory.ofImage a bs) = true := by
  induction bs generalizing a with
  | nil => rfl
  | cons b bs ih =>
    unfold Memory.ofImage
    split_ifs with hb
    · exact Memory.wfFrom_mono (ih (a + 1)) (by omega)
    · exact Memory.wfFrom_cons.mpr ⟨le_refl a, hb, ih (a + 1)⟩

theorem Memory.wf_ofImage (a : Nat) (bs : List Byte) : (Memory.ofImage a bs).wf = true :=
  Memory.wfFrom_mono (Memory.wfFrom_ofImage a bs) (Nat.zero_le a)

theorem Memory.within_ofImage {lo hi a : Nat} {bs : List Byte} (h1 : lo ≤ a)
    (h2 : a + bs.length ≤ hi) : (Memory.ofImage a bs).within lo hi = true := by
  induction bs generalizing a with
  | nil => rfl
  | cons b bs ih =>
    rw [List.length_cons] at h2
    unfold Memory.ofImage
    split_ifs
    · exact ih (by omega) (by omega)
    · exact Memory.within_cons.mpr ⟨⟨h1, by omega⟩, ih (by omega) (by omega)⟩

/-- The image's bytes, zero-padded. -/
theorem Memory.read_ofImage (a k : Nat) (bs : List Byte) :
    (Memory.ofImage a bs).read (a + k) = bs.getD k Memory.unlisted := by
  induction bs generalizing a k with
  | nil => simp [Memory.ofImage]
  | cons b bs ih =>
    unfold Memory.ofImage
    cases k with
    | zero =>
      split_ifs with hb
      · rw [hb, Nat.add_zero, Memory.read_below (Memory.wfFrom_ofImage (a + 1) bs) (by omega)]
        rfl
      · simp [Memory.read_cons]
    | succ k =>
      have hk : a + (k + 1) = a + 1 + k := by omega
      split_ifs with hb
      · rw [hk, ih, List.getD_cons_succ]
      · rw [Memory.read_cons, if_neg (by omega), hk, ih, List.getD_cons_succ]

/-! ## Canonical form determines the store -/

theorem Memory.eq_of_read_eq {lo lo' : Nat} {m m' : Memory} (h : Memory.wfFrom lo m = true)
    (h' : Memory.wfFrom lo' m' = true) (hr : ∀ a, m.read a = m'.read a) : m = m' := by
  induction m generalizing lo lo' m' with
  | nil =>
    cases m' with
    | nil => rfl
    | cons c m' =>
      obtain ⟨k, b⟩ := c
      have := hr k
      rw [Memory.read_cons, if_pos rfl, Memory.read_nil] at this
      exact absurd this.symm (Memory.wfFrom_cons.mp h').2.1
  | cons c m ih =>
    obtain ⟨k, b⟩ := c
    have hm := Memory.wfFrom_cons.mp h
    cases m' with
    | nil =>
      have := hr k
      rw [Memory.read_cons, if_pos rfl, Memory.read_nil] at this
      exact absurd this hm.2.1
    | cons c' m' =>
      obtain ⟨k', b'⟩ := c'
      have hm' := Memory.wfFrom_cons.mp h'
      have hk : k = k' := by
        rcases Nat.lt_trichotomy k k' with hlt | heq | hlt
        · have := hr k
          rw [Memory.read_cons, if_pos rfl, Memory.read_cons, if_neg (by omega),
            Memory.read_below hm'.2.2 (by omega)] at this
          exact absurd this hm.2.1
        · exact heq
        · have := hr k'
          rw [Memory.read_cons, if_neg (by omega), Memory.read_cons, if_pos rfl,
            Memory.read_below hm.2.2 (by omega)] at this
          exact absurd this.symm hm'.2.1
      subst hk
      have hb : b = b' := by
        have := hr k
        rwa [Memory.read_cons, if_pos rfl, Memory.read_cons, if_pos rfl] at this
      subst hb
      have : m = m' := by
        refine ih hm.2.2 hm'.2.2 fun a => ?_
        have ha := hr a
        rw [Memory.read_cons, Memory.read_cons] at ha
        split_ifs at ha with hka
        · rw [Memory.read_below hm.2.2 (by omega), Memory.read_below hm'.2.2 (by omega)]
        · exact ha
      rw [this]

/-! ## Byte order -/

@[simp] theorem length_leBytes (n v : Nat) : (leBytes n v).length = n := by
  induction n generalizing v with
  | zero => rfl
  | succ n ih => simp [leBytes, ih]

/-- The bytes of a number make its low bits again. -/
theorem leValue_leBytes (n v : Nat) : leValue (leBytes n v) = v % 256 ^ n := by
  induction n generalizing v with
  | zero => simp [leBytes, leValue, Nat.mod_one]
  | succ n ih =>
    have h : (256 : Nat) ^ (n + 1) = 256 * 256 ^ n := pow_succ' 256 n
    rw [leBytes, leValue, ih, BitVec.toNat_ofNat, h, Nat.mod_mul]

theorem leValue_lt (bs : List Byte) : leValue bs < 256 ^ bs.length := by
  induction bs with
  | nil => simp [leValue]
  | cons b bs ih =>
    have := b.isLt
    rw [leValue, List.length_cons, Nat.pow_succ]
    omega

/-! ## The values of one, two and four bytes -/

theorem leBytes_getElem? {n k : Nat} (v : Nat) (h : k < n) :
    (leBytes n v)[k]? = some (BitVec.ofNat 8 (v / 2 ^ (8 * k))) := by
  induction n generalizing v k with
  | zero => omega
  | succ n ih =>
    cases k with
    | zero => simp [leBytes]
    | succ k =>
      simp only [leBytes, List.getElem?_cons_succ]
      rw [ih _ (by omega), Nat.div_div_eq_div_mul, show 8 * (k + 1) = 8 + 8 * k by omega, pow_add]
      rfl

theorem Memory.readBytes_getElem? (m : Memory) (a : Nat) {n k : Nat} (h : k < n) :
    (m.readBytes a n)[k]? = some (m.read (a + k)) := by
  induction n generalizing a k with
  | zero => omega
  | succ n ih =>
    cases k with
    | zero => simp [Memory.readBytes]
    | succ k =>
      simp only [Memory.readBytes, List.getElem?_cons_succ]
      rw [ih _ (by omega), show a + 1 + k = a + (k + 1) by omega]

/-- Each byte of a number stored from address `a` on. -/
theorem Memory.read_writeBytes_leBytes {m : Memory} (h : m.wf = true) (a v : Nat) {n k : Nat}
    (hk : k < n) :
    (m.writeBytes a (leBytes n v)).read (a + k) = BitVec.ofNat 8 (v / 2 ^ (8 * k)) := by
  have h1 := Memory.readBytes_writeBytes h a (leBytes n v)
  rw [length_leBytes] at h1
  have h2 := (m.writeBytes a (leBytes n v)).readBytes_getElem? a hk
  rw [h1, leBytes_getElem? _ hk] at h2
  exact (Option.some.inj h2).symm

theorem ofNat_readBytes_one (m : Memory) (a : Nat) :
    BitVec.ofNat 8 (leValue (m.readBytes a 1)) = m.read a := by
  simp [Memory.readBytes, leValue]

theorem toNat_append_byte {w : Nat} (x : BitVec w) (b : Byte) :
    (x ++ b).toNat = x.toNat * 256 + b.toNat := by
  rw [BitVec.toNat_append, ← Nat.shiftLeft_add_eq_or_of_lt b.isLt, Nat.shiftLeft_eq]

theorem ofNat_readBytes_two (m : Memory) (a : Nat) :
    BitVec.ofNat 16 (leValue (m.readBytes a 2)) = m.read (a + 1) ++ m.read a := by
  apply BitVec.eq_of_toNat_eq
  rw [toNat_append_byte, BitVec.toNat_ofNat]
  simp only [Memory.readBytes, leValue]
  have h0 := (m.read a).isLt
  have h1 := (m.read (a + 1)).isLt
  omega

theorem ofNat_readBytes_four (m : Memory) (a : Nat) :
    BitVec.ofNat 32 (leValue (m.readBytes a 4)) =
      m.read (a + 3) ++ m.read (a + 2) ++ m.read (a + 1) ++ m.read a := by
  apply BitVec.eq_of_toNat_eq
  rw [toNat_append_byte, toNat_append_byte, toNat_append_byte, BitVec.toNat_ofNat]
  simp only [Memory.readBytes, leValue, Nat.add_assoc, Nat.reduceAdd]
  have h0 := (m.read a).isLt
  have h1 := (m.read (a + 1)).isLt
  have h2 := (m.read (a + 2)).isLt
  have h3 := (m.read (a + 3)).isLt
  omega

end Sys2Proof.Machine
end

