-- ==== Sys2Proof/Laws/State.lean ====
section
/-! SUPPORT. One small lemma per field per update of the state, and the register read after each update,
so that no proof unfolds a record update. -/

namespace Sys2Proof.Machine

variable (s : State) (phase : Phase) (e : Exception) (r : Reg) (v : Word)

/-! ## The pc advance -/

@[simp] theorem State.advance_ramBase : s.advance.ramBase = s.ramBase := rfl
@[simp] theorem State.advance_regs : s.advance.regs = s.regs := rfl
@[simp] theorem State.advance_pc : s.advance.pc = s.pc + 4#32 := rfl
@[simp] theorem State.advance_status : s.advance.status = s.status := rfl
@[simp] theorem State.advance_mem : s.advance.mem = s.mem := rfl
@[simp] theorem State.advance_x : s.advance.x r = s.x r := rfl

/-! ## A stop -/

@[simp] theorem State.raise_ramBase : (s.raise phase e).ramBase = s.ramBase := rfl
@[simp] theorem State.raise_regs : (s.raise phase e).regs = s.regs := rfl
@[simp] theorem State.raise_pc : (s.raise phase e).pc = s.pc := rfl
@[simp] theorem State.raise_status : (s.raise phase e).status = e.status phase := rfl
@[simp] theorem State.raise_mem : (s.raise phase e).mem = s.mem := rfl
@[simp] theorem State.raise_x : (s.raise phase e).x r = s.x r := rfl

@[simp] theorem Exception.status_opcodeZero : Exception.opcodeZero.status phase = .halted := rfl
@[simp] theorem Exception.status_fault (kind : FaultKind) :
    (Exception.fault kind).status phase = .faulted phase kind := rfl

@[simp] theorem State.reject_ramBase (j : Reject) : (s.reject j).ramBase = s.ramBase := by
  cases j <;> rfl
@[simp] theorem State.reject_regs (j : Reject) : (s.reject j).regs = s.regs := by cases j <;> rfl
@[simp] theorem State.reject_pc (j : Reject) : (s.reject j).pc = s.pc := by cases j <;> rfl
@[simp] theorem State.reject_mem (j : Reject) : (s.reject j).mem = s.mem := by cases j <;> rfl
@[simp] theorem State.reject_x (j : Reject) : (s.reject j).x r = s.x r := by cases j <;> rfl

/-! ## A register write -/

@[simp] theorem State.setX_ramBase : (s.setX r v).ramBase = s.ramBase := by
  unfold State.setX; split <;> rfl
@[simp] theorem State.setX_pc : (s.setX r v).pc = s.pc := by unfold State.setX; split <;> rfl
@[simp] theorem State.setX_status : (s.setX r v).status = s.status := by
  unfold State.setX; split <;> rfl
@[simp] theorem State.setX_mem : (s.setX r v).mem = s.mem := by unfold State.setX; split <;> rfl

/-- `x[0]` reads as 0 in every state. -/
@[simp] theorem State.x_zero : s.x 0#5 = 0#32 := rfl

/-- A write of register 0 changes nothing. -/
@[simp] theorem State.setX_zero : s.setX 0#5 v = s := rfl

theorem State.x_setX_same {r : Reg} (hr : r ≠ 0#5) : (s.setX r v).x r = v := by
  simp [State.x, State.setX, hr]

theorem State.x_setX_other {r r' : Reg} (hne : r' ≠ r) : (s.setX r v).x r' = s.x r' := by
  by_cases hr : r = 0#5
  · simp [State.setX, hr]
  by_cases hr' : r' = 0#5
  · subst hr'; rfl
  have h : r.toNat - 1 ≠ r'.toNat - 1 := by
    have h1 : r.toNat ≠ 0 := fun e => hr (BitVec.eq_of_toNat_eq (by simpa using e))
    have h2 : r'.toNat ≠ 0 := fun e => hr' (BitVec.eq_of_toNat_eq (by simpa using e))
    have h3 : r'.toNat ≠ r.toNat := fun e => hne (BitVec.eq_of_toNat_eq e)
    omega
  simp [State.x, State.setX, hr, hr', h]

/-- Every register after a register write. -/
theorem State.x_setX {r r' : Reg} :
    (s.setX r v).x r' = if r' = r ∧ r ≠ 0#5 then v else s.x r' := by
  by_cases h : r' = r
  · subst h
    by_cases h0 : r' = 0#5
    · simp [h0]
    · simp [h0, State.x_setX_same s v h0]
  · simp [h, State.x_setX_other s v h]

/-! ## Host moves -/

variable (k : Fin Config.memSize) (b : Byte)

@[simp] theorem State.hostWriteMem_ramBase : (s.hostWriteMem k b).ramBase = s.ramBase := rfl
@[simp] theorem State.hostWriteMem_regs : (s.hostWriteMem k b).regs = s.regs := rfl
@[simp] theorem State.hostWriteMem_pc : (s.hostWriteMem k b).pc = s.pc := rfl
@[simp] theorem State.hostWriteMem_status : (s.hostWriteMem k b).status = s.status := rfl
@[simp] theorem State.hostWriteMem_mem :
    (s.hostWriteMem k b).mem = s.mem.write (s.ramBase.val + k.val) b := rfl
@[simp] theorem State.hostWriteMem_x : (s.hostWriteMem k b).x r = s.x r := rfl

/-! ## Construction -/

variable (base : Config.RamBase) (image : List Byte)

@[simp] theorem State.construct_ramBase : (State.construct base image).ramBase = base := rfl
@[simp] theorem State.construct_pc : (State.construct base image).pc = Config.resetVector base := rfl
@[simp] theorem State.construct_status : (State.construct base image).status = .running := rfl
@[simp] theorem State.construct_mem :
    (State.construct base image).mem = Memory.ofImage base.val (image.take Config.memSize) := rfl
@[simp] theorem State.construct_x : (State.construct base image).x r = 0#32 := by
  unfold State.x State.construct
  split
  · rfl
  · exact Vector.getElem_replicate _

end Sys2Proof.Machine
end

