-- ==== Sys2Proof/Laws/Ops.lean ====
section
/-! SUPPORT. What each shared operation over memory can do, said once: the checks of an access, the
memory interface, the shared bodies of loads and stores, and that each keeps the RAM in order. -/

namespace Sys2Proof.Machine

/-! ## The checks of an access -/

theorem accessFault_none {base : Config.RamBase} {addr : Word} {n : Nat} :
    accessFault base addr n = none ↔
      base.val ≤ addr.toNat ∧ addr.toNat + n ≤ base.val + Config.memSize := by
  unfold accessFault
  split_ifs <;> simp <;> omega

theorem accessFault_unmapped {base : Config.RamBase} {addr : Word} {n : Nat} (h : addr.toNat < base.val) :
    accessFault base addr n = some (.unmapped addr) := if_pos h

theorem accessFault_outOfBounds {base : Config.RamBase} {addr : Word} {n : Nat}
    (h1 : base.val ≤ addr.toNat) (h2 : addr.toNat - base.val + n > Config.memSize) :
    accessFault base addr n = some (.outOfBounds addr n) := by
  unfold accessFault
  rw [if_neg (by omega), if_pos h2]

/-- An access is in the RAM, `Unmapped` or `OutOfBounds`, and nothing else. -/
theorem accessFault_cases (base : Config.RamBase) (addr : Word) (n : Nat) :
    (accessFault base addr n = none ∧ base.val ≤ addr.toNat ∧
        addr.toNat + n ≤ base.val + Config.memSize) ∨
      (accessFault base addr n = some (.unmapped addr) ∧ addr.toNat < base.val) ∨
      (accessFault base addr n = some (.outOfBounds addr n) ∧ base.val ≤ addr.toNat ∧
        addr.toNat - base.val + n > Config.memSize) := by
  unfold accessFault
  split_ifs with h1 h2
  · exact .inr (.inl ⟨rfl, h1⟩)
  · exact .inr (.inr ⟨rfl, by omega, h2⟩)
  · exact .inl ⟨rfl, by omega, by omega⟩

/-! ## The memory interface on the widths an instruction issues -/

theorem State.load_eq_memRead (s : State) (addr : Word) {width : Nat} (h : widthSupported width = true) :
    s.load addr width = s.memRead addr (width / 8) := if_pos h

theorem State.store_eq_memWrite (s : State) (addr : Word) {width : Nat}
    (h : widthSupported width = true) (v : Nat) :
    s.store addr width v = s.memWrite addr (width / 8) v := if_pos h

theorem State.load_unsupported (s : State) (addr : Word) {width : Nat}
    (h : widthSupported width = false) : s.load addr width = .error (.unsupportedSize width) :=
  if_neg (by simp [h])

theorem State.store_unsupported (s : State) (addr : Word) {width : Nat}
    (h : widthSupported width = false) (v : Nat) :
    s.store addr width v = .error (.unsupportedSize width) := if_neg (by simp [h])

theorem State.memRead_ok {s : State} {addr : Word} {n : Nat} (h : accessFault s.ramBase addr n = none) :
    s.memRead addr n = .ok (leValue (s.mem.readBytes addr.toNat n)) := by
  unfold State.memRead; rw [h]

theorem State.memRead_error {s : State} {addr : Word} {n : Nat} {kind : FaultKind}
    (h : accessFault s.ramBase addr n = some kind) : s.memRead addr n = .error kind := by
  unfold State.memRead; rw [h]

theorem State.memWrite_ok {s : State} {addr : Word} {n : Nat} (h : accessFault s.ramBase addr n = none)
    (v : Nat) :
    s.memWrite addr n v = .ok { s with mem := s.mem.writeBytes addr.toNat (leBytes n v) } := by
  unfold State.memWrite; rw [h]

theorem State.memWrite_error {s : State} {addr : Word} {n : Nat} {kind : FaultKind}
    (h : accessFault s.ramBase addr n = some kind) (v : Nat) : s.memWrite addr n v = .error kind := by
  unfold State.memWrite; rw [h]

/-! ## The shared bodies of loads and stores -/

variable {s : State} {rd : Reg} {addr : Word} {width : Nat} {kind : FaultKind}

theorem State.loadTo_ok (hw : widthSupported width = true)
    (h : accessFault s.ramBase addr (width / 8) = none) (widen : Nat → Word) :
    s.loadTo rd addr width widen =
      s.setX rd (widen (leValue (s.mem.readBytes addr.toNat (width / 8)))) := by
  simp [State.loadTo, State.load_eq_memRead s addr hw, State.memRead_ok h]

theorem State.loadTo_error (hw : widthSupported width = true)
    (h : accessFault s.ramBase addr (width / 8) = some kind) (widen : Nat → Word) :
    s.loadTo rd addr width widen = s.raise .execute (.fault kind) := by
  simp [State.loadTo, State.load_eq_memRead s addr hw, State.memRead_error h]

theorem State.storeFrom_ok (hw : widthSupported width = true)
    (h : accessFault s.ramBase addr (width / 8) = none) (v : Word) :
    s.storeFrom addr width v =
      { s with mem := s.mem.writeBytes addr.toNat (leBytes (width / 8) v.toNat) } := by
  simp [State.storeFrom, State.store_eq_memWrite s addr hw, State.memWrite_ok h]

theorem State.storeFrom_error (hw : widthSupported width = true)
    (h : accessFault s.ramBase addr (width / 8) = some kind) (v : Word) :
    s.storeFrom addr width v = s.raise .execute (.fault kind) := by
  simp [State.storeFrom, State.store_eq_memWrite s addr hw, State.memWrite_error h]

/-! ## Frames -/

theorem State.sameButReg_setX (s : State) (r : Reg) (v : Word) : s.SameButReg (s.setX r v) r :=
  ⟨s.setX_ramBase r v, s.setX_pc r v, s.setX_status r v, fun _ h => s.x_setX_other v h,
    fun a => by rw [s.setX_mem r v]⟩

theorem State.sameButBytes_writeBytes (s : State) (a : Nat) (bs : List Byte) :
    s.SameButBytes { s with mem := s.mem.writeBytes a bs } a bs.length :=
  ⟨rfl, rfl, rfl, fun _ => rfl, fun _ hb => Memory.read_writeBytes_outside hb⟩

/-! ## The RAM stays in order -/

theorem State.memOk_iff {s : State} :
    s.memOk = true ↔ s.mem.wf = true ∧ s.mem.within s.ramBase.val s.ramEnd = true := by
  simp [State.memOk]

theorem State.memOk_writeBytes {s : State} {addr : Word} {bs : List Byte} (hs : s.memOk = true)
    (h : accessFault s.ramBase addr bs.length = none) :
    State.memOk { s with mem := s.mem.writeBytes addr.toNat bs } = true := by
  rw [State.memOk_iff] at hs ⊢
  have hr := accessFault_none.mp h
  exact ⟨Memory.wf_writeBytes hs.1 _ _, Memory.within_writeBytes hs.2 hr.1 hr.2⟩

theorem State.memOk_hostWriteMem {s : State} (hs : s.memOk = true) (k : Fin Config.memSize) (b : Byte) :
    (s.hostWriteMem k b).memOk = true := by
  rw [State.memOk_iff] at hs ⊢
  have hk := k.isLt
  exact ⟨Memory.wf_write hs.1 _ _,
    Memory.within_write hs.2 (Nat.le_add_right _ _) (Nat.add_lt_add_left hk _) b⟩

theorem State.memOk_construct (base : Config.RamBase) (image : List Byte) :
    (State.construct base image).memOk = true := by
  rw [State.memOk_iff]
  refine ⟨Memory.wf_ofImage _ _, Memory.within_ofImage (le_refl _) ?_⟩
  have : (image.take Config.memSize).length ≤ Config.memSize := List.length_take_le _ _
  exact Nat.add_le_add_left this _

end Sys2Proof.Machine
end

