-- ==== Sys2Proof/Laws/PerInstr.lean ====
section
/-! SUPPORT. Laws of the instruction as syntax, one lemma per constructor. The family `TableRow`: the
encoder's word has, under the mask of the instruction's row of spec/opcode_table.json, the row's match
value (R81). -/

namespace Sys2Proof.Laws.TableRow

/-- The instruction's word lies in the instruction's row of the opcode table. R81. -/
def Statement (i : Instr) : Prop := encode i &&& maskOf i = matchOf i

section Shapes

variable {o : BitVec 7} {f3 : BitVec 3} {f7 : BitVec 7} {v : Word}

theorem row_of_encodeI (ho : opcodeOf v = o) (h3 : funct3Of v = f3) (hv : v &&& 0x707f#32 = v)
    (rd rs1 : Reg) (imm : Word) : encodeI o f3 rd rs1 imm &&& 0x707f#32 = v := by
  rw [mask_707f_iff _ hv, encodeI, opcodeOf_iType, funct3Of_iType]
  exact ⟨ho.symm, h3.symm⟩

theorem row_of_encodeS (ho : opcodeOf v = o) (h3 : funct3Of v = f3) (hv : v &&& 0x707f#32 = v)
    (rs1 rs2 : Reg) (imm : Word) : encodeS o f3 rs1 rs2 imm &&& 0x707f#32 = v := by
  rw [mask_707f_iff _ hv, encodeS, opcodeOf_sType, funct3Of_sType]
  exact ⟨ho.symm, h3.symm⟩

theorem row_of_encodeR (ho : opcodeOf v = o) (h3 : funct3Of v = f3) (h7 : funct7Of v = f7)
    (hv : v &&& 0xfe00707f#32 = v) (rd rs1 rs2 : Reg) :
    encodeR o f3 f7 rd rs1 rs2 &&& 0xfe00707f#32 = v := by
  rw [mask_fe00707f_iff _ hv, encodeR, opcodeOf_rType, funct3Of_rType, funct7Of_rType]
  exact ⟨ho.symm, h3.symm, h7.symm⟩

end Shapes

variable (rd rs1 rs2 : Reg) (imm : Word)

theorem lb : Statement (.lb rd rs1 imm) :=
  row_of_encodeI (v := 0x00000003#32) (by decide) (by decide) (by decide) rd rs1 imm
theorem lh : Statement (.lh rd rs1 imm) :=
  row_of_encodeI (v := 0x00001003#32) (by decide) (by decide) (by decide) rd rs1 imm
theorem lw : Statement (.lw rd rs1 imm) :=
  row_of_encodeI (v := 0x00002003#32) (by decide) (by decide) (by decide) rd rs1 imm
theorem lbu : Statement (.lbu rd rs1 imm) :=
  row_of_encodeI (v := 0x00004003#32) (by decide) (by decide) (by decide) rd rs1 imm
theorem lhu : Statement (.lhu rd rs1 imm) :=
  row_of_encodeI (v := 0x00005003#32) (by decide) (by decide) (by decide) rd rs1 imm
theorem addi : Statement (.addi rd rs1 imm) :=
  row_of_encodeI (v := 0x00000013#32) (by decide) (by decide) (by decide) rd rs1 imm
theorem add : Statement (.add rd rs1 rs2) :=
  row_of_encodeR (v := 0x00000033#32) (by decide) (by decide) (by decide) (by decide) rd rs1 rs2
theorem sub : Statement (.sub rd rs1 rs2) :=
  row_of_encodeR (v := 0x40000033#32) (by decide) (by decide) (by decide) (by decide) rd rs1 rs2
theorem sb : Statement (.sb rs1 rs2 imm) :=
  row_of_encodeS (v := 0x00000023#32) (by decide) (by decide) (by decide) rs1 rs2 imm
theorem sh : Statement (.sh rs1 rs2 imm) :=
  row_of_encodeS (v := 0x00001023#32) (by decide) (by decide) (by decide) rs1 rs2 imm
theorem sw : Statement (.sw rs1 rs2 imm) :=
  row_of_encodeS (v := 0x00002023#32) (by decide) (by decide) (by decide) rs1 rs2 imm
theorem opcodeZero (rest : BitVec 25) : Statement (.opcodeZero rest) :=
  (mask_7f_iff (v := 0x00000000#32) _ (by decide)).mpr (opcodeOf_placeAt rest)

end Sys2Proof.Laws.TableRow
end

