-- ==== Sys2Proof/Laws/Step.lean ====
section
/-! SUPPORT. What an instruction and a step can do, said once: every meaning answers a next state that
keeps `RAM_BASE` and the pc; each meaning as one of three shapes (a register write, bytes stored, a stop);
and the inversion of a step. -/

namespace Sys2Proof.Machine

/-! ## Regions and checks -/

theorem State.InRam.accessFault {s : State} {addr : Word} {n : Nat} (h : s.InRam addr n) :
    accessFault s.ramBase addr n = none :=
  accessFault_none.mpr ⟨h.1, by have := h.2; have := h.1; omega⟩

theorem State.BelowRam.accessFault {s : State} {addr : Word} (h : s.BelowRam addr) (n : Nat) :
    accessFault s.ramBase addr n = some (.unmapped addr) := accessFault_unmapped h

theorem State.PastRam.accessFault {s : State} {addr : Word} {n : Nat} (h : s.PastRam addr n) :
    accessFault s.ramBase addr n = some (.outOfBounds addr n) := accessFault_outOfBounds h.1 h.2

theorem accessFault_none_inRam {s : State} {addr : Word} {n : Nat}
    (h : Sys2Proof.Machine.accessFault s.ramBase addr n = none) : s.InRam addr n := by
  have h := accessFault_none.mp h
  exact ⟨h.1, by omega⟩

theorem accessFault_some_region {s : State} {addr : Word} {n : Nat} {kind : FaultKind}
    (h : accessFault s.ramBase addr n = some kind) :
    s.BelowRam addr ∧ kind = .unmapped addr ∨ s.PastRam addr n ∧ kind = .outOfBounds addr n := by
  rcases accessFault_cases s.ramBase addr n with ⟨h1, h2⟩ | ⟨h1, h2⟩ | ⟨h1, h2⟩ <;>
    rw [h] at h1 <;> cases h1
  · exact .inl ⟨h2, rfl⟩
  · exact .inr ⟨h2, rfl⟩

/-! ## Shapes of a meaning -/

@[simp] theorem dataAccess_advance (s : State) (i : Instr) : dataAccess s.advance i = dataAccess s i := by
  cases i <;> rfl

/-- The state after an instruction: a register write, bytes stored within the RAM, or a stop in the
execute phase by the data access's own check, or the halt. -/
inductive Effect (i : Instr) (s : State) : State → Prop
  | reg {rd : Reg} (v : Word) (hd : destOf i = some rd)
      (ha : ∀ addr n, dataAccess s i = some (addr, n) → accessFault s.ramBase addr n = none) :
      Effect i s (s.setX rd v)
  | bytes {addr : Word} {bs : List Byte} (ha : dataAccess s i = some (addr, bs.length))
      (hs : isStore i = true) (h : accessFault s.ramBase addr bs.length = none) :
      Effect i s { s with mem := s.mem.writeBytes addr.toNat bs }
  | stop {addr : Word} {n : Nat} {kind : FaultKind} (ha : dataAccess s i = some (addr, n))
      (h : accessFault s.ramBase addr n = some kind) : Effect i s (s.raise .execute (.fault kind))
  | halt {rest : BitVec 25} (hi : i = .opcodeZero rest) : Effect i s (s.raise .decode .opcodeZero)

theorem effect_loadTo {i : Instr} {s : State} {rd : Reg} {addr : Word} {width : Nat}
    {widen : Nat → Word} (hd : destOf i = some rd) (hw : widthSupported width = true)
    (ha : dataAccess s i = some (addr, width / 8)) : Effect i s (s.loadTo rd addr width widen) := by
  cases h : accessFault s.ramBase addr (width / 8) with
  | none =>
    rw [State.loadTo_ok hw h]
    exact .reg _ hd fun a n e => by rw [ha] at e; cases e; exact h
  | some kind => rw [State.loadTo_error hw h]; exact .stop ha h

theorem effect_storeFrom {i : Instr} {s : State} {addr : Word} {width : Nat} {v : Word}
    (hs : isStore i = true) (hw : widthSupported width = true)
    (ha : dataAccess s i = some (addr, width / 8)) : Effect i s (s.storeFrom addr width v) := by
  cases h : accessFault s.ramBase addr (width / 8) with
  | none =>
    rw [State.storeFrom_ok hw h]
    exact .bytes (by rw [length_leBytes]; exact ha) hs (by rw [length_leBytes]; exact h)
  | some kind => rw [State.storeFrom_error hw h]; exact .stop ha h

/-- Every instruction answers a next state, of one of the four shapes. -/
theorem exec_effect (i : Instr) (s : State) : ∃ t, exec i s = .next t ∧ Effect i s t := by
  cases i with
  | lb rd rs1 imm => exact ⟨_, rfl, effect_loadTo rfl rfl rfl⟩
  | lh rd rs1 imm => exact ⟨_, rfl, effect_loadTo rfl rfl rfl⟩
  | lw rd rs1 imm => exact ⟨_, rfl, effect_loadTo rfl rfl rfl⟩
  | lbu rd rs1 imm => exact ⟨_, rfl, effect_loadTo rfl rfl rfl⟩
  | lhu rd rs1 imm => exact ⟨_, rfl, effect_loadTo rfl rfl rfl⟩
  | addi rd rs1 imm => exact ⟨_, rfl, .reg _ rfl fun _ _ e => nomatch e⟩
  | add rd rs1 rs2 => exact ⟨_, rfl, .reg _ rfl fun _ _ e => nomatch e⟩
  | sub rd rs1 rs2 => exact ⟨_, rfl, .reg _ rfl fun _ _ e => nomatch e⟩
  | sb rs1 rs2 imm => exact ⟨_, rfl, effect_storeFrom rfl rfl rfl⟩
  | sh rs1 rs2 imm => exact ⟨_, rfl, effect_storeFrom rfl rfl rfl⟩
  | sw rs1 rs2 imm => exact ⟨_, rfl, effect_storeFrom rfl rfl rfl⟩
  | opcodeZero rest => exact ⟨_, rfl, .halt rfl⟩

theorem effect_of_exec {i : Instr} {s t : State} (h : exec i s = .next t) : Effect i s t := by
  obtain ⟨t', h', he⟩ := exec_effect i s
  rw [h] at h'
  cases h'
  exact he

theorem Effect.ramBase {i : Instr} {s t : State} (h : Effect i s t) : t.ramBase = s.ramBase := by
  cases h <;> simp

theorem Effect.pc {i : Instr} {s t : State} (h : Effect i s t) : t.pc = s.pc := by
  cases h <;> simp

theorem Effect.memOk {i : Instr} {s t : State} (h : Effect i s t) (hs : s.memOk = true) :
    t.memOk = true := by
  cases h with
  | reg v hd ha => simpa [State.memOk_iff, State.ramEnd] using State.memOk_iff.mp hs
  | bytes ha hst h => exact State.memOk_writeBytes hs h
  | stop ha h => exact hs
  | halt hi => exact hs

/-! ## The fetch -/

theorem State.fetch_ok {s : State} (h : accessFault s.ramBase s.pc 4 = none) :
    s.fetch = .ok (BitVec.ofNat 32 (leValue (s.mem.readBytes s.pc.toNat 4))) := by
  unfold State.fetch
  rw [State.load_eq_memRead s s.pc rfl, State.memRead_ok h]
  rfl

theorem State.fetch_error {s : State} {kind : FaultKind}
    (h : accessFault s.ramBase s.pc 4 = some kind) : s.fetch = .error kind := by
  unfold State.fetch
  rw [State.load_eq_memRead s s.pc rfl, State.memRead_error h]
  rfl

/-- A successful fetch lies in the RAM and a failed one is the check's own fault. -/
theorem State.fetch_cases (s : State) :
    (∃ kind, accessFault s.ramBase s.pc 4 = some kind ∧ s.fetch = .error kind) ∨
      (accessFault s.ramBase s.pc 4 = none ∧
        s.fetch = .ok (BitVec.ofNat 32 (leValue (s.mem.readBytes s.pc.toNat 4)))) := by
  cases h : accessFault s.ramBase s.pc 4 with
  | some kind => exact .inl ⟨kind, rfl, State.fetch_error h⟩
  | none => exact .inr ⟨rfl, State.fetch_ok h⟩

/-! ## The step -/

theorem step_halted {s : State} (h : s.status = .halted) : step s = .fault .alreadyHalted := by
  unfold step; rw [h]

theorem step_faulted {s : State} {phase : Phase} {kind : FaultKind}
    (h : s.status = .faulted phase kind) : step s = .fault (.alreadyFaulted phase kind) := by
  unfold step; rw [h]

theorem step_fetch_error {s : State} {kind : FaultKind} (hr : s.status = .running)
    (h : s.fetch = .error kind) : step s = .next (s.raise .fetch (.fault kind)) := by
  unfold step; rw [hr, h]

theorem step_ok {s : State} {raw : Word} {i : Instr} (hr : s.status = .running)
    (h : s.fetch = .ok raw) (hd : decode raw = .ok i) : step s = exec i s.advance := by
  unfold step; rw [hr, h]; simp only [hd]

theorem step_reject {s : State} {raw : Word} {j : Reject} (hr : s.status = .running)
    (h : s.fetch = .ok raw) (hd : decode raw = .error j) : step s = .next (s.advance.reject j) := by
  unfold step; rw [hr, h]; simp only [hd]

/-- A step is taken only from `Running`, and it is a fetch fault, a rejected word or an executed
instruction. -/
theorem step_cases {s t : State} (h : step s = .next t) : s.status = .running ∧
    ((∃ kind, accessFault s.ramBase s.pc 4 = some kind ∧ s.fetch = .error kind ∧
        t = s.raise .fetch (.fault kind)) ∨
      (∃ raw j, accessFault s.ramBase s.pc 4 = none ∧ s.fetch = .ok raw ∧ decode raw = .error j ∧
        t = s.advance.reject j) ∨
      (∃ raw i, accessFault s.ramBase s.pc 4 = none ∧ s.fetch = .ok raw ∧ decode raw = .ok i ∧
        exec i s.advance = .next t ∧ Effect i s.advance t)) := by
  cases hs : s.status with
  | halted => rw [step_halted hs] at h; cases h
  | faulted phase kind => rw [step_faulted hs] at h; cases h
  | running =>
    refine ⟨rfl, ?_⟩
    rcases s.fetch_cases with ⟨kind, ha, hf⟩ | ⟨ha, hf⟩
    · rw [step_fetch_error hs hf] at h
      cases h
      exact .inl ⟨kind, ha, hf, rfl⟩
    · cases hd : decode (BitVec.ofNat 32 (leValue (s.mem.readBytes s.pc.toNat 4))) with
      | error j =>
        rw [step_reject hs hf hd] at h
        cases h
        exact .inr (.inl ⟨_, j, ha, hf, hd, rfl⟩)
      | ok i =>
        rw [step_ok hs hf hd] at h
        exact .inr (.inr ⟨_, i, ha, hf, hd, h, effect_of_exec h⟩)

end Sys2Proof.Machine
end

