-- ==== Sys2Proof/Tests/Slice0.lean ====
section
/-! SUPPORT. The model's own tests. Expected values come from spec/95_test_vectors.md (its section is
named at each group) and from the layouts of R72 to R76. Words are written out field by field. After them,
for each statement with hypotheses, a state and operands that meet them, at the edges of each range. -/

namespace Sys2Proof.Tests

open Sys2Proof Sys2Proof.Machine

/-! ## Helpers -/

/-- The next state that was answered. -/
def next? : Result → Option State
  | .next t => some t
  | .fault _ => none
  | .refused _ => none

/-- The machine constructed from nothing, with `RAM_BASE`, pc, registers and RAM bytes (by index) set. -/
def mk (base : Config.RamBase) (pc : Word) (xs : List (Reg × Word)) (bs : List (Fin Config.memSize × Byte)) :
    State :=
  xs.foldl (fun s p => s.setX p.1 p.2)
    (bs.foldl (fun s p => s.hostWriteMem p.1 p.2) { State.construct base [] with pc := pc })

/-- `RAM_BASE = 0x80000000`. -/
def b80 : Config.RamBase := ⟨0x80000000, by decide⟩

/-- `RAM_BASE = 0xFFFFF000`, the highest. -/
def bTop : Config.RamBase := ⟨0xFFFFF000, by decide⟩

/-- The machine at `b80` about to run `w` at its first address, with registers and RAM bytes set. -/
def m80 (w : Word) (xs : List (Reg × Word)) (bs : List (Fin Config.memSize × Byte)) : State :=
  (mk b80 0x80000000#32 xs bs).withFetchWord 32 w.toNat

/-- `x1 = RAM_BASE + d` at `b80`; the memory of section 2.2. -/
def loads (w : Word) (d : Nat) : State :=
  m80 w [(1, BitVec.ofNat 32 (0x80000000 + d)), (3, 0x55)]
    [(0x10, 0x80), (0x11, 0x7F), (0x12, 0xFF), (0x13, 0x00), (0x14, 0x78), (0x15, 0x56), (0x16, 0x34),
      (0x17, 0x12)]

/-- `x1 = RAM_BASE + d` and `x2 = A1B2C3D4` at `b80`, section 2.5. -/
def stores (w : Word) (d : Nat) : State :=
  m80 w [(1, BitVec.ofNat 32 (0x80000000 + d)), (2, 0xA1B2C3D4)] [(0x22, 0xEE), (0x27, 0xEE)]

/-- Register `r` after a step from `s`. -/
def xAfter (s : State) (r : Reg) : Option Word := (next? (step s)).map (·.x r)

/-- The status after a step from `s`. -/
def statusAfter (s : State) : Option Status := (next? (step s)).map (·.status)

/-- The pc after a step from `s`. -/
def pcAfter (s : State) : Option Word := (next? (step s)).map (·.pc)

/-- RAM bytes after a step from `s`. -/
def ramAfter (s : State) (k n : Nat) : Option (List Byte) :=
  (next? (step s)).map fun t => t.mem.readBytes (t.ramBase.val + k) n

/-! ## WellFormed: an ill-formed term for each check -/

theorem test_wf_lb : (Instr.lb 1 2 2048).wellFormed = false := by decide
theorem test_wf_lh : (Instr.lh 1 2 0xFFFFF7FF).wellFormed = false := by decide
theorem test_wf_lw : (Instr.lw 1 2 0x80000000).wellFormed = false := by decide
theorem test_wf_lbu : (Instr.lbu 1 2 2048).wellFormed = false := by decide
theorem test_wf_lhu : (Instr.lhu 1 2 0x7FFFFFFF).wellFormed = false := by decide
theorem test_wf_addi : (Instr.addi 1 2 0x00000FFF).wellFormed = false := by decide
theorem test_wf_sb : (Instr.sb 1 2 2048).wellFormed = false := by decide
theorem test_wf_sh : (Instr.sh 1 2 0xFFFFF7FF).wellFormed = false := by decide
theorem test_wf_sw : (Instr.sw 1 2 0x00001000).wellFormed = false := by decide
theorem test_wf_edges : (Instr.lw 31 31 2047).wellFormed = true ∧
    (Instr.sw 31 31 0xFFFFF800).wellFormed = true := by decide

/-! ## Decoding: a word for each constructor, section 2.1 and 2.2 to 2.5 -/

theorem test_decode_lb : decode 0b011111111111_01011_000_01010_0000011#32 = .ok (.lb 10 11 2047) := by decide
theorem test_decode_lh : decode 0b000000000001_00001_001_00011_0000011#32 = .ok (.lh 3 1 1) := by decide
theorem test_decode_lw : decode 0b111111111100_00110_010_00101_0000011#32 = .ok (.lw 5 6 0xFFFFFFFC) := by decide
theorem test_decode_lbu : decode 0b000000000010_00001_100_00011_0000011#32 = .ok (.lbu 3 1 2) := by decide
theorem test_decode_lhu : decode 0b100000000000_01101_101_01100_0000011#32 = .ok (.lhu 12 13 0xFFFFF800) := by
  decide
theorem test_decode_addi : decode 0b111111111101_00000_000_00010_0010011#32 = .ok (.addi 2 0 0xFFFFFFFD) := by
  decide
theorem test_decode_add : decode 0b0000000_00010_00001_000_00011_0110011#32 = .ok (.add 3 1 2) := by decide
theorem test_decode_sub : decode 0b0100000_00010_00001_000_00100_0110011#32 = .ok (.sub 4 1 2) := by decide
theorem test_decode_sb : decode 0b0111111_01001_01010_000_11111_0100011#32 = .ok (.sb 10 9 2047) := by decide
theorem test_decode_sh : decode 0b1000000_01011_01100_001_00000_0100011#32 = .ok (.sh 12 11 0xFFFFF800) := by
  decide
theorem test_decode_sw : decode 0b1111110_01110_01111_010_11111_0100011#32 = .ok (.sw 15 14 0xFFFFFFDF) := by
  decide
theorem test_decode_opcodeZero :
    decode 0b1111111111111111111111111_0000000#32 = .ok (.opcodeZero 0x1FFFFFF) := by decide
theorem test_decode_branch_lui_system :
    decode 0x00000063#32 = .error (.illegalOpcode 0x00000063) ∧
    decode 0x00000037#32 = .error (.illegalOpcode 0x00000037) ∧
    decode 0x00000073#32 = .error (.illegalOpcode 0x00000073) := by decide
theorem test_decode_odd_opcodes :
    decode 0x00000001#32 = .error (.illegalOpcode 0x00000001) ∧
    decode 0x0000001B#32 = .error (.illegalOpcode 0x0000001B) ∧
    decode 0xFFFFFFFF#32 = .error (.illegalOpcode 0xFFFFFFFF) := by decide
theorem test_decode_illegal_funct3 :
    decode 0x0000B183#32 = .error (.illegalInstruction 0x0000B183) ∧
    decode 0x0000F183#32 = .error (.illegalInstruction 0x0000F183) ∧
    decode 0x00109113#32 = .error (.illegalInstruction 0x00109113) ∧
    decode 0x0020B023#32 = .error (.illegalInstruction 0x0020B023) ∧
    decode 0x0020F1B3#32 = .error (.illegalInstruction 0x0020F1B3) := by decide
theorem test_decode_illegal_funct7 :
    decode 0x022081B3#32 = .error (.illegalInstruction 0x022081B3) ∧
    decode 0x4020D1B3#32 = .error (.illegalInstruction 0x4020D1B3) ∧
    decode 0x202081B3#32 = .error (.illegalInstruction 0x202081B3) ∧
    decode 0xC02081B3#32 = .error (.illegalInstruction 0xC02081B3) := by decide
/-- spec/opcode_table.json as written: no two rows share a word. -/
theorem test_table_rows_disjoint :
    [(0x0000707f#32, 0x00000003#32), (0x0000707f#32, 0x00001003#32), (0x0000707f#32, 0x00002003#32),
      (0x0000707f#32, 0x00004003#32), (0x0000707f#32, 0x00005003#32), (0x0000707f#32, 0x00000013#32),
      (0xfe00707f#32, 0x00000033#32), (0xfe00707f#32, 0x40000033#32), (0x0000707f#32, 0x00000023#32),
      (0x0000707f#32, 0x00001023#32), (0x0000707f#32, 0x00002023#32),
      (0x0000007f#32, 0x00000000#32)].Pairwise
      (fun a b => a.1 &&& b.1 &&& a.2 ≠ a.1 &&& b.1 &&& b.2) := by decide
theorem test_decodeTableWord : decodeTableWord 32 0x40208233 = some (.sub 4 1 2) := by decide

/-! ## One step of each instruction: sections 2.2 to 2.6 -/

theorem test_lb_sign : xAfter (loads 0x00008183 0x10) 3 = some 0xFFFFFF80 := by decide
theorem test_lb_below : statusAfter (loads 0xFFF08183 0) =
    some (.faulted .execute (.unmapped 0x7FFFFFFF)) := by decide
theorem test_lh_odd : xAfter (loads 0x00109183 0x10) 3 = some 0xFFFFFF7F := by decide
theorem test_lh_past : statusAfter (loads 0x00009183 4095) =
    some (.faulted .execute (.outOfBounds 0x80000FFF 2)) := by decide
theorem test_lw_misaligned : xAfter (loads 0x0010A183 0x10) 3 = some 0x7800FF7F := by decide
theorem test_lw_rd_is_rs1 : xAfter (loads 0x0040A083 0x10) 1 = some 0x12345678 := by decide
theorem test_lbu_zero : xAfter (loads 0x0020C183 0x10) 3 = some 0x000000FF := by decide
theorem test_lbu_past : xAfter (loads 0x0000C183 4096) 3 = some 0x55 := by decide
theorem test_lhu_odd : xAfter (loads 0x0010D183 0x10) 3 = some 0x0000FF7F := by decide
theorem test_lhu_straddles_base : statusAfter (loads 0xFFF0D183 0) =
    some (.faulted .execute (.unmapped 0x7FFFFFFF)) := by decide
theorem test_addi_wraps : xAfter (m80 0x00108113 [(1, 0xFFFFFFFF)] []) 2 = some 0 := by decide
theorem test_addi_negative : xAfter (m80 0x80008113 [(1, 0x800)] []) 2 = some 0 := by decide
theorem test_add_doubles : xAfter (m80 0x001080B3 [(1, 0x40000001)] []) 1 = some 0x80000002 := by decide
theorem test_add_x0 : xAfter (m80 0x00208033 [(1, 1), (2, 2)] []) 0 = some 0 := by decide
theorem test_sub_order : xAfter (m80 0x402081B3 [(1, 3), (2, 5)] []) 3 = some 0xFFFFFFFE := by decide
theorem test_sub_borrow : xAfter (m80 0x402081B3 [(1, 0x80000000), (2, 1)] []) 3 = some 0x7FFFFFFF := by decide
theorem test_sb_one_byte : ramAfter (stores 0x00208023 0x21) 0x20 4 = some [0, 0xD4, 0xEE, 0] := by decide
theorem test_sb_last : ramAfter (stores 0x00208023 4095) 4094 2 = some [0, 0xD4] := by decide
theorem test_sh_odd : ramAfter (stores 0x002090A3 0x20) 0x20 4 = some [0, 0xD4, 0xC3, 0] := by decide
theorem test_sh_past : ramAfter (stores 0x00209023 4095) 4094 2 = some [0, 0] := by decide
theorem test_sw_misaligned : ramAfter (stores 0x0020A1A3 0x20) 0x22 6 =
    some [0xEE, 0xD4, 0xC3, 0xB2, 0xA1, 0xEE] := by decide
theorem test_sw_past : statusAfter (stores 0x0020A023 4094) =
    some (.faulted .execute (.outOfBounds 0x80000FFE 4)) := by decide
theorem test_halt : statusAfter (m80 0x13010100 [] []) = some .halted ∧
    pcAfter (m80 0x13010100 [] []) = some 0x80000004 := by decide
theorem test_illegal_opcode : statusAfter (m80 0x00000063 [] []) =
    some (.faulted .decode (.illegalOpcode 0x00000063)) ∧
    pcAfter (m80 0x00000063 [] []) = some 0x80000004 := by decide
theorem test_illegal_before_address : statusAfter (m80 0x0000F183 [] []) =
    some (.faulted .execute (.illegalInstruction 0x0000F183)) := by decide
theorem test_fetch_past : statusAfter (mk b80 0x80000FFE [] []) =
    some (.faulted .fetch (.outOfBounds 0x80000FFE 4)) ∧
    pcAfter (mk b80 0x80000FFE [] []) = some 0x80000FFE := by decide
theorem test_fetch_below : statusAfter (mk b80 0x7FFFFFFC [] []) =
    some (.faulted .fetch (.unmapped 0x7FFFFFFC)) := by decide
theorem test_fetch_unaligned : xAfter (mk b80 0x80000001 [] [(1, 0x13), (2, 1), (4, 1)]) 2 = some 0x10 := by
  decide
theorem test_pc_wraps : pcAfter (mk bTop 0xFFFFFFFC [] [(4092, 0x13)]) = some 0 := by decide
/-- Sections 2.7 and 2.8: the index sum does not wrap; a short image; the kind and phase codes of R161. -/
theorem test_no_wrap : (State.construct 0 []).memRead 0xFFFFFFFF 4 = .error (.outOfBounds 0xFFFFFFFF 4) := by
  decide
theorem test_width_64 : ((State.construct b80 []).store 0x80000000 64 0x0102030405060708).toOption.map
    (fun t => t.mem.readBytes 0x80000000 8) = some [8, 7, 6, 5, 4, 3, 2, 1] := by decide
theorem test_short_image : (State.construct b80 [0x13, 0x01, 0x00]).mem.readBytes 0x80000000 4 =
    [0x13, 0x01, 0x00, 0x00] := by decide
theorem test_codes : (Exception.fault (.outOfBounds 0 4)).code = 4 ∧ Exception.opcodeZero.code = 0 ∧
    Phase.execute.code = 2 := by decide
theorem test_driver_halts : ((mk b80 0x80000FFC [] []).drive 2).status = .halted := by decide
theorem reset_mem_wf : State.reset.mem.wf = true := by decide

/-! ## Witnesses: a state and operands that meet each statement's hypotheses, every clause at an edge

`RAM_BASE` is `0x80000000` unless the clause needs another; the last word of the RAM is at `0x80000FFC`,
the last byte at `0x80000FFF`. -/

theorem next_of_status {s : State} {st : Status} (h : statusAfter s = some st) :
    ∃ t, step s = .next t ∧ t.status = st := by
  unfold statusAfter at h
  cases hs : step s with
  | next t => rw [hs] at h; exact ⟨t, rfl, Option.some.inj h⟩
  | fault r => rw [hs] at h; cases h
  | refused r => rw [hs] at h; cases h

/-- Nothing but `RAM_BASE`: registers 0, RAM 0. -/
def at80 (pc : Word) : State := mk b80 pc [] []

/-- The word `w` in the last four bytes of the RAM, and the pc there. -/
def lastWord (w : Word) (xs : List (Reg × Word)) : State := (mk b80 0x80000FFC xs []).withFetchWord 32 w.toNat

/-- A store of `x2 = A1B2C3D4` is about to run at the last word, `x1 = 80000000`. -/
def storing : State := lastWord 0x0020A023 [(1, 0x80000000), (2, 0xA1B2C3D4)]

theorem witness_EncodedInstructionDecodesBack : (Instr.lb 31 0 0xFFFFF800).wellFormed = true ∧
    (Instr.sw 0 31 2047).wellFormed = true ∧ (Instr.opcodeZero 0x1FFFFFF).wellFormed = true := by decide
theorem witness_DecodedWordEncodesBack : decode 0xFE742E23#32 = .ok (.sw 8 7 0xFFFFFFFC) := by decide
theorem witness_FormatKeepsEveryBit :
    decodeFormat 0x40208233#32 = .format (.rType 0x33 4 1 2 0 0x20) ∧
    decodeFormat 0xFFC32283#32 = .format (.iType 0x03 5 6 0xFFFFFFFC 2) ∧
    decodeFormat 0x80B61023#32 = .format (.sType 0x23 12 11 0xFFFFF800 1) := by decide
theorem witness_MatchAndMaskSelectRow :
    decode 0x01FF8FB3#32 = .ok (.add 31 31 31) ∧
    0x01FF8FB3#32 &&& maskOf (.add 0 0 0) = matchOf (.add 0 0 0) := by decide
theorem witness_IllegalFunctionCodesRejected :
    (0x0000B183#32).extractLsb' 0 7 = 0x03#7 ∧ (0x0000B183#32).extractLsb' 12 3 = 3#3 ∧
    (0x0FF0F113#32).extractLsb' 0 7 = 0x13#7 ∧ (0x0FF0F113#32).extractLsb' 12 3 = 7#3 ∧
    (0x0020B023#32).extractLsb' 0 7 = 0x23#7 ∧ (3#3).ule ((0x0020B023#32).extractLsb' 12 3) = true ∧
    (0x022081B3#32).extractLsb' 0 7 = 0x33#7 ∧ (0x022081B3#32).extractLsb' 25 7 = 0x01#7 := by decide
theorem witness_StepRunsDecodedInstruction : storing.status = .running ∧ storing.InRam storing.pc 4 ∧
    decode (storing.mem.read (storing.pc.toNat + 3) ++ storing.mem.read (storing.pc.toNat + 2) ++
      storing.mem.read (storing.pc.toNat + 1) ++ storing.mem.read storing.pc.toNat : Word) =
      .ok (.sw 1 2 0) := ⟨by decide, ⟨by decide, by decide⟩, by decide⟩
theorem witness_FetchFaultKeepsPc : (at80 0x80000FFC).InRam (at80 0x80000FFC).pc 4 ∧
    (at80 0x7FFFFFFF).BelowRam (at80 0x7FFFFFFF).pc ∧ (mk bTop 0 [] []).BelowRam (mk bTop 0 [] []).pc ∧
    (at80 0x80000FFD).PastRam (at80 0x80000FFD).pc 4 ∧ (at80 0x80001000).PastRam (at80 0x80001000).pc 4 :=
  ⟨⟨by decide, by decide⟩, by show _ < _; decide, by show _ < _; decide, ⟨by decide, by decide⟩,
    ⟨by decide, by decide⟩⟩
theorem witness_IllegalOpcodeStops : (lastWord 0xFFFFFFFF []).status = .running ∧
    (lastWord 0xFFFFFFFF []).fetch = .ok 0xFFFFFFFF ∧ (0xFFFFFFFF#32).extractLsb' 0 7 = 0x7F#7 := by decide
theorem witness_IllegalFunctionCodeStops : (lastWord 0x022081B3 []).status = .running ∧
    (lastWord 0x022081B3 []).fetch = .ok 0x022081B3 ∧ (0x022081B3#32).extractLsb' 0 7 = 0x33#7 ∧
    ∀ i, 0x022081B3#32 &&& maskOf i ≠ matchOf i :=
  ⟨by decide, by decide, by decide, fun i => by cases i <;> simp only [maskOf, matchOf] <;> decide⟩
theorem witness_OpcodeZeroHalts : (lastWord 0x13010100 []).status = .running ∧
    (lastWord 0x13010100 []).fetch = .ok 0x13010100 ∧ (0x13010100#32).extractLsb' 0 7 = 0x00#7 ∧
    statusAfter (lastWord 0x13010100 []) = some .halted := by decide
theorem witness_StepTakenOnlyWhenRunning : (at80 0x80000000).status = .running ∧
    ((at80 0x80000000).raise .decode .opcodeZero).status = .halted ∧
    ((at80 0).raise .fetch (.fault (.unmapped 0))).status = .faulted .fetch (.unmapped 0) := by decide
/-- One state for each of the six rows of the table. -/
theorem witness_StepOutcomeTable :
    (∃ t, step (at80 0x80001000) = .next t ∧ t.status = .faulted .fetch (.outOfBounds 0x80001000 4)) ∧
    (∃ t, step (at80 0x80000FFC) = .next t ∧ t.status = .halted) ∧
    (∃ t, step (lastWord 0x63 []) = .next t ∧ t.status = .faulted .decode (.illegalOpcode 0x63)) ∧
    (∃ t, step (lastWord 0x0000F183 []) = .next t ∧
      t.status = .faulted .execute (.illegalInstruction 0x0000F183)) ∧
    (∃ t, step (lastWord 0x00000103 []) = .next t ∧ t.status = .faulted .execute (.unmapped 0)) ∧
    (∃ t, step storing = .next t ∧ t.status = .running) :=
  ⟨next_of_status (by decide), next_of_status (by decide), next_of_status (by decide),
    next_of_status (by decide), next_of_status (by decide), next_of_status (by decide)⟩
theorem witness_StopIsPrecise :
    (∃ t, step (at80 0x7FFFFFFF) = .next t ∧ t.status = .faulted .fetch (.unmapped 0x7FFFFFFF)) ∧
    (∃ t, step (lastWord 0x0000A183 [(1, 0x80000FFD)]) = .next t ∧
      t.status = .faulted .execute (.outOfBounds 0x80000FFD 4)) :=
  ⟨next_of_status (by decide), next_of_status (by decide)⟩
theorem witness_PcAdvancesByFour :
    (∃ t, step storing = .next t ∧ t.status = .running) ∧ storing.fetch = .ok 0x0020A023 ∧
    (∃ t, step (at80 0) = .next t ∧ t.status = .faulted .fetch (.unmapped 0)) ∧
    (at80 0).fetch = .error (.unmapped 0) :=
  ⟨next_of_status (by decide), by decide, next_of_status (by decide), by decide⟩
/-- A state for each clause; the data accesses at `RAM_BASE - 1`, one past the last word, and the first
word. -/
theorem witness_FirstStopWins :
    (at80 0x7FFFFFFF).BelowRam (at80 0x7FFFFFFF).pc ∧ (at80 0x80000FFD).PastRam (at80 0x80000FFD).pc 4 ∧
    decodeFormat 0x13010100#32 = .opcodeZero ∧
    decodeFormat 0x63#32 = .illegalOpcode 0x63#32 ∧
    select (.iType 0x03 3 1 0 7) = none ∧ select (.iType 0x03 3 1 0xFFFFFFFF 2) = some (.lw 3 1 0xFFFFFFFF) ∧
    dataAccess (loads 0xFFF0A183 0) (.lw 3 1 0xFFFFFFFF) = some (0x7FFFFFFF, 4) ∧
    (loads 0xFFF0A183 0).BelowRam 0x7FFFFFFF ∧
    dataAccess (loads 0xFFF0A183 4094) (.lw 3 1 0xFFFFFFFF) = some (0x80000FFD, 4) ∧
    (loads 0xFFF0A183 4094).PastRam 0x80000FFD 4 ∧ (loads 0xFFF0A183 1).InRam 0x80000000 4 ∧
    dataAccess (at80 0) (.addi 1 1 1) = none :=
  ⟨by show _ < _; decide, ⟨by decide, by decide⟩, by decide, by decide, by decide, by decide, by decide,
    by show _ < _; decide, by decide, ⟨by decide, by decide⟩, ⟨by decide, by decide⟩, by decide⟩
theorem witness_FaultKindsOccurInTheirPhases :
    (∃ t, step (lastWord 0x63 []) = .next t ∧ t.status = .faulted .decode (.illegalOpcode 0x63)) ∧
    (∃ t, step (lastWord 0x0000F183 []) = .next t ∧
      t.status = .faulted .execute (.illegalInstruction 0x0000F183)) ∧
    (∃ t, step (at80 0) = .next t ∧ t.status = .faulted .fetch (.unmapped 0)) ∧
    (∃ t, step (lastWord 0x0000C183 [(1, 0x80001000)]) = .next t ∧
      t.status = .faulted .execute (.outOfBounds 0x80001000 1)) :=
  ⟨next_of_status (by decide), next_of_status (by decide), next_of_status (by decide),
    next_of_status (by decide)⟩
theorem witness_PlacedWordRuns : (at80 0x80000FFC).status = .running ∧ (at80 0x80000FFC).memOk = true ∧
    (at80 0x80000FFC).InRam (at80 0x80000FFC).pc 4 ∧ decodeTableWord 32 0x0020A023 = some (.sw 1 2 0) :=
  ⟨by decide, by decide, ⟨by decide, by decide⟩, by decide⟩
theorem witness_InvariantKeptByEveryMove : storing.Inv ∧ (∃ t, Move storing t) ∧
    ((at80 0).raise .fetch (.fault (.unmapped 0))).Inv ∧
    Move (at80 0) ((at80 0).hostWriteMem ⟨4095, by decide⟩ 0xFF) :=
  ⟨⟨by decide, by decide⟩,
    (next_of_status (s := storing) (st := .running) (by decide)).imp fun _ h => .step h.1,
    ⟨by decide, by decide⟩, .hostWrite _ _ _⟩
theorem witness_RamBaseNeverChanges : (∃ t, Move storing t) ∧
    Move storing (storing.hostWriteMem ⟨0, by decide⟩ 1) :=
  ⟨(next_of_status (s := storing) (st := .running) (by decide)).imp fun _ h => .step h.1, .hostWrite _ _ _⟩
theorem witness_PcStaysOnWordGrid : Reachable bTop (State.construct bTop [0x13]) ∧
    ∃ t, Reachable b80 t ∧ t.status = .halted :=
  ⟨.construct _, (next_of_status (s := State.construct b80 []) (st := .halted) (by decide)).imp
    fun _ h => ⟨.move (.construct []) (.step h.1), h.2⟩⟩
/-- `addi x2,x0,16` at the last word. -/
theorem witness_OnlyDestinationRegisterChanges : ∃ t, step (lastWord 0x01000113 []) = .next t ∧
    t.x 2 ≠ (lastWord 0x01000113 []).x 2 := ⟨_, rfl, by decide⟩
theorem witness_OnlyStoresChangeMemory : ∃ t, step storing = .next t ∧
    t.mem.read 0x80000003 ≠ storing.mem.read 0x80000003 := ⟨_, rfl, by decide⟩
theorem witness_EveryRunStops : storing.status = .running ∧ ∃ t, Steps 1 storing t :=
  ⟨by decide, (next_of_status (s := storing) (st := .running) (by decide)).imp fun _ h => .step h.1 (.refl _)⟩
theorem witness_DriverEnds : (1025 : Nat) ≤ 1025 := by decide
theorem witness_HostStepReportsNewStatus : (at80 0x80000000).status = .running ∧
    ((at80 0x80000000).raise .decode .opcodeZero).Terminal := ⟨by decide, by show _ ≠ _; decide⟩

/-- The three regions for accesses of `n` bytes: the first and the last address of the RAM, the byte below
it, one byte too far, and the address past its end. In `at80 0` each address is the effective address of
`rs1 = x0` and the address as immediate. -/
def Edges (n : Nat) : Prop :=
  (at80 0).memOk = true ∧ (at80 0).InRam 0x80000000 n ∧
  (at80 0).InRam (BitVec.ofNat 32 (0x80001000 - n)) n ∧
  (at80 0).BelowRam 0x7FFFFFFF ∧ (at80 0).PastRam (BitVec.ofNat 32 (0x80001001 - n)) n ∧
  (at80 0).PastRam 0x80001000 n

theorem edges_one : Edges 1 := ⟨by decide, ⟨by decide, by decide⟩, ⟨by decide, by decide⟩,
  by show _ < _; decide, ⟨by decide, by decide⟩, ⟨by decide, by decide⟩⟩
theorem edges_two : Edges 2 := ⟨by decide, ⟨by decide, by decide⟩, ⟨by decide, by decide⟩,
  by show _ < _; decide, ⟨by decide, by decide⟩, ⟨by decide, by decide⟩⟩
theorem edges_four : Edges 4 := ⟨by decide, ⟨by decide, by decide⟩, ⟨by decide, by decide⟩,
  by show _ < _; decide, ⟨by decide, by decide⟩, ⟨by decide, by decide⟩⟩
theorem edges_eight : Edges 8 := ⟨by decide, ⟨by decide, by decide⟩, ⟨by decide, by decide⟩,
  by show _ < _; decide, ⟨by decide, by decide⟩, ⟨by decide, by decide⟩⟩

theorem witness_MemReadSumsBytes : Edges 1 ∧ Edges 8 := ⟨edges_one, edges_eight⟩
theorem witness_MemWriteStoresBytes : Edges 1 ∧ Edges 8 := ⟨edges_one, edges_eight⟩
theorem witness_WriteThenReadRoundTrip : (at80 0).memOk = true ∧
    ∃ t, (at80 0).memWrite 0x80000FFC 4 0xA1B2C3D4 = .ok t := ⟨by decide, _, rfl⟩
theorem witness_WordIsLittleEndian : (at80 0).memOk = true ∧
    ∃ t, (at80 0).store 0x80000FFC 32 (0xA1B2C3D4#32).toNat = .ok t := ⟨by decide, _, rfl⟩
theorem witness_MisalignedReadIsBytewise : (at80 0).InRam 0x80000FFB 4 := ⟨by decide, by decide⟩
theorem witness_UnsupportedWidthRejected : (24 : Nat) ≠ 8 ∧ 24 ≠ 16 ∧ 24 ≠ 32 ∧ 24 ≠ 64 := by decide
/-- The store overwrites its own, already fetched, word, and the pc stands there again. -/
theorem witness_StoreSeenByNextFetch :
    let s := mk b80 0x80000FFC [(1, 0x80000FFC), (2, 0x01000113)] []
    s.memOk = true ∧ s.status = .running ∧ s.x 1 + 0 = s.pc ∧ s.InRam s.pc 4 ∧
    decode (s.x 2) = .ok (.addi 2 0 16) ∧ ∃ t, exec (.sw 1 2 0) s = .next t :=
  ⟨by decide, by decide, by decide, ⟨by decide, by decide⟩, by decide, _, rfl⟩
/-- `sh` covers the last byte before the pc and the first byte at it. -/
theorem witness_StoredBytesSeenByNextFetch :
    let s := mk b80 0x80000FFC [(1, 0x80000FFB), (2, 0xA1B2C3D4)] []
    s.memOk = true ∧ (0x80000FFB#32 : Word) = s.x 1 + 0 ∧ s.InRam 0x80000FFB 2 ∧ s.InRam s.pc 4 ∧
    ∃ t, exec (.sh 1 2 0) s = .next t :=
  ⟨by decide, by decide, ⟨by decide, by decide⟩, ⟨by decide, by decide⟩, _, rfl⟩
theorem witness_ImageIsPaddedOrTruncated : (4095 < 4096) ∧ (List.replicate 4096 (7 : Byte))[4095]? = some 7 ∧
    ([1, 2, 3] : List Byte).length ≤ 3 := ⟨by decide, by rw [List.getElem?_replicate]; rfl, by decide⟩
theorem witness_HostWriteSetsOneByte : storing.memOk = true := by decide
theorem witness_ObservationDeterminesState : storing.memOk = true ∧
    ∀ k, storing.hostReadMem k = storing.hostReadMem k := ⟨by decide, fun _ => rfl⟩
theorem witness_RegisterZeroIsConstant : (31#5 : Reg) ≠ 0#5 := by decide

/-- Each load and store at the edges of the RAM, with a destination that is written and with `x0`. -/
theorem witness_LbLoadsSignExtendedByte : (0x80000FFF#32 : Word) = (loads 0 4095).x 1 + 0 ∧ Edges 1 ∧
    (3#5 : Reg) ≠ 0#5 ∧ 0x00008183#32 &&& 0x0000707f#32 = 0x00000003#32 :=
  ⟨by decide, edges_one, by decide, by decide⟩
theorem witness_LhLoadsSignExtendedHalfword : (0x80000FFE#32 : Word) = (loads 0 4095).x 1 + 0xFFFFFFFF ∧
    Edges 2 ∧ (3#5 : Reg) ≠ 0#5 ∧ 0x00009183#32 &&& 0x0000707f#32 = 0x00001003#32 :=
  ⟨by decide, edges_two, by decide, by decide⟩
theorem witness_LwLoadsWord : (0x80000FFC#32 : Word) = (loads 0 4092).x 1 + 0 ∧ Edges 4 ∧
    (3#5 : Reg) ≠ 0#5 ∧ 0x0000A183#32 &&& 0x0000707f#32 = 0x00002003#32 :=
  ⟨by decide, edges_four, by decide, by decide⟩
theorem witness_LbuLoadsZeroExtendedByte : (0x80000000#32 : Word) = (loads 0 1).x 1 + 0xFFFFFFFF ∧ Edges 1 ∧
    (3#5 : Reg) ≠ 0#5 ∧ 0x0000C183#32 &&& 0x0000707f#32 = 0x00004003#32 :=
  ⟨by decide, edges_one, by decide, by decide⟩
theorem witness_LhuLoadsZeroExtendedHalfword : (0x80000FFF#32 : Word) = (loads 0 4095).x 1 + 0 ∧ Edges 2 ∧
    (3#5 : Reg) ≠ 0#5 ∧ 0x0000D183#32 &&& 0x0000707f#32 = 0x00005003#32 :=
  ⟨by decide, edges_two, by decide, by decide⟩
theorem witness_AddiAddsImmediate : 0x80008113#32 &&& 0x0000707f#32 = 0x00000013#32 ∧ (2#5 : Reg) ≠ 0#5 := by
  decide
theorem witness_AddAddsRegisters : 0x01FF8FB3#32 &&& 0xfe00707f#32 = 0x00000033#32 ∧ (31#5 : Reg) ≠ 0#5 := by
  decide
theorem witness_SubSubtractsRegisters : 0x40208233#32 &&& 0xfe00707f#32 = 0x40000033#32 ∧
    (4#5 : Reg) ≠ 0#5 := by decide
theorem witness_SbStoresLowByte : (0x80000FFF#32 : Word) = (stores 0 4095).x 1 + 0 ∧ Edges 1 ∧
    0x00208023#32 &&& 0x0000707f#32 = 0x00000023#32 := ⟨by decide, edges_one, by decide⟩
theorem witness_ShStoresLowHalfword : (0x80000FFE#32 : Word) = (stores 0 4095).x 1 + 0xFFFFFFFF ∧ Edges 2 ∧
    0x002090A3#32 &&& 0x0000707f#32 = 0x00001023#32 := ⟨by decide, edges_two, by decide⟩
theorem witness_SwStoresWord : (0x80000FFC#32 : Word) = (stores 0 4092).x 1 + 0 ∧ Edges 4 ∧
    0x0020A023#32 &&& 0x0000707f#32 = 0x00002023#32 := ⟨by decide, edges_four, by decide⟩

end Sys2Proof.Tests
end

section
/-! PROOFS. The encoding family (spec/30_encoding.md): the word of a decoded instruction, which words the
rows of R81 select, and the I-type immediate. -/

namespace Sys2Proof

section Words

/-! ## The word of a decoded instruction (R86) -/

variable {raw : Word}

theorem word_of_decodeFormat {f : Format} (h : decodeFormat raw = .format f) : f.word = raw := by
  unfold decodeFormat at h
  split_ifs at h
  · cases h; exact word_of_iType_fields raw
  · cases h; exact word_of_sType_fields raw
  · cases h; exact word_of_rType_fields raw

/-- The dispatch picks the instruction whose opcode and function codes the format already holds. -/
theorem encode_of_select {f : Format} {i : Instr} (h : select f = some i) : encode i = f.word := by
  cases f with
  | rType opcode rd rs1 rs2 funct3 funct7 =>
    simp only [select, selectOp] at h
    split_ifs at h <;> cases h <;> simp [encode, encodeR, *]
  | iType opcode rd rs1 imm funct3 =>
    simp only [select, selectLoad, selectOpImm] at h
    split_ifs at h <;> cases h <;> simp [encode, encodeI, *]
  | sType opcode rs1 rs2 imm funct3 =>
    simp only [select, selectStore] at h
    split_ifs at h <;> cases h <;> simp [encode, encodeS, *]

theorem encode_of_decode {i : Instr} (h : decode raw = .ok i) : encode i = raw := by
  rcases decode_ok_cases h with ⟨hzero, rfl⟩ | ⟨f, hformat, hselect⟩
  · exact placeAt_restOf (decodeFormat_opcodeZero_iff.mp hzero)
  · rw [encode_of_select hselect, word_of_decodeFormat hformat]

/-! ## The words of a row (R81, R78) -/

/-- The encoder puts every instruction in its own row. -/
theorem encode_and_maskOf (i : Instr) : encode i &&& maskOf i = matchOf i := by
  cases i with
  | lb rd rs1 imm => exact Laws.TableRow.lb rd rs1 imm
  | lh rd rs1 imm => exact Laws.TableRow.lh rd rs1 imm
  | lw rd rs1 imm => exact Laws.TableRow.lw rd rs1 imm
  | lbu rd rs1 imm => exact Laws.TableRow.lbu rd rs1 imm
  | lhu rd rs1 imm => exact Laws.TableRow.lhu rd rs1 imm
  | addi rd rs1 imm => exact Laws.TableRow.addi rd rs1 imm
  | add rd rs1 rs2 => exact Laws.TableRow.add rd rs1 rs2
  | sub rd rs1 rs2 => exact Laws.TableRow.sub rd rs1 rs2
  | sb rs1 rs2 imm => exact Laws.TableRow.sb rs1 rs2 imm
  | sh rs1 rs2 imm => exact Laws.TableRow.sh rs1 rs2 imm
  | sw rs1 rs2 imm => exact Laws.TableRow.sw rs1 rs2 imm
  | opcodeZero rest => exact Laws.TableRow.opcodeZero rest

theorem mask_of_decode {i : Instr} (h : decode raw = .ok i) : raw &&& maskOf i = matchOf i := by
  rw [← encode_of_decode h]
  exact encode_and_maskOf i

variable {v : Word}

theorem decode_of_load_row (h : raw &&& 0x707f#32 = v) (hv : v &&& 0x707f#32 = v)
    (ho : opcodeOf v = 0x03#7) :
    decode raw = ofSelect raw (selectLoad (rdOf raw) (rs1Of raw) (immIOf raw) (funct3Of v)) := by
  obtain ⟨hopcode, hfunct3⟩ := (mask_707f_iff raw hv).mp h
  rw [decode_load (hopcode.trans ho), hfunct3]

theorem decode_of_opImm_row (h : raw &&& 0x707f#32 = v) (hv : v &&& 0x707f#32 = v)
    (ho : opcodeOf v = 0x13#7) :
    decode raw = ofSelect raw (selectOpImm (rdOf raw) (rs1Of raw) (immIOf raw) (funct3Of v)) := by
  obtain ⟨hopcode, hfunct3⟩ := (mask_707f_iff raw hv).mp h
  rw [decode_opImm (hopcode.trans ho), hfunct3]

theorem decode_of_store_row (h : raw &&& 0x707f#32 = v) (hv : v &&& 0x707f#32 = v)
    (ho : opcodeOf v = 0x23#7) :
    decode raw = ofSelect raw (selectStore (rs1Of raw) (rs2Of raw) (immSOf raw) (funct3Of v)) := by
  obtain ⟨hopcode, hfunct3⟩ := (mask_707f_iff raw hv).mp h
  rw [decode_store (hopcode.trans ho), hfunct3]

theorem decode_of_op_row (h : raw &&& 0xfe00707f#32 = v) (hv : v &&& 0xfe00707f#32 = v)
    (ho : opcodeOf v = 0x33#7) :
    decode raw =
      ofSelect raw (selectOp (rdOf raw) (rs1Of raw) (rs2Of raw) (funct3Of v) (funct7Of v)) := by
  obtain ⟨hopcode, hfunct3, hfunct7⟩ := (mask_fe00707f_iff raw hv).mp h
  rw [decode_op (hopcode.trans ho), hfunct3, hfunct7]

theorem decode_of_zero_row (h : raw &&& 0x7f#32 = 0#32) :
    decode raw = .ok (.opcodeZero (restOf raw)) :=
  decode_zero ((mask_7f_iff raw (by decide)).mp h)

/-- The instruction of `i`'s row whose operands are read from the word. -/
def Instr.withOperandsOf (raw : Word) : Instr → Instr
  | .lb _ _ _ => .lb (rdOf raw) (rs1Of raw) (immIOf raw)
  | .lh _ _ _ => .lh (rdOf raw) (rs1Of raw) (immIOf raw)
  | .lw _ _ _ => .lw (rdOf raw) (rs1Of raw) (immIOf raw)
  | .lbu _ _ _ => .lbu (rdOf raw) (rs1Of raw) (immIOf raw)
  | .lhu _ _ _ => .lhu (rdOf raw) (rs1Of raw) (immIOf raw)
  | .addi _ _ _ => .addi (rdOf raw) (rs1Of raw) (immIOf raw)
  | .add _ _ _ => .add (rdOf raw) (rs1Of raw) (rs2Of raw)
  | .sub _ _ _ => .sub (rdOf raw) (rs1Of raw) (rs2Of raw)
  | .sb _ _ _ => .sb (rs1Of raw) (rs2Of raw) (immSOf raw)
  | .sh _ _ _ => .sh (rs1Of raw) (rs2Of raw) (immSOf raw)
  | .sw _ _ _ => .sw (rs1Of raw) (rs2Of raw) (immSOf raw)
  | .opcodeZero _ => .opcodeZero (restOf raw)

@[simp] theorem maskOf_withOperandsOf (i : Instr) : maskOf (i.withOperandsOf raw) = maskOf i := by
  cases i <;> rfl

@[simp] theorem matchOf_withOperandsOf (i : Instr) : matchOf (i.withOperandsOf raw) = matchOf i := by
  cases i <;> rfl

/-- A word in an instruction's row decodes to that instruction with the word's own operands. -/
theorem decode_of_mask {i : Instr} (h : raw &&& maskOf i = matchOf i) :
    decode raw = .ok (i.withOperandsOf raw) := by
  cases i with simp only [maskOf, matchOf] at h
  | lb | lh | lw | lbu | lhu => exact decode_of_load_row h (by decide) (by decide)
  | addi => exact decode_of_opImm_row h (by decide) (by decide)
  | add | sub => exact decode_of_op_row h (by decide) (by decide)
  | sb | sh | sw => exact decode_of_store_row h (by decide) (by decide)
  | opcodeZero => exact decode_of_zero_row h

end Words

/-! ## The I-type immediate (R75) -/

theorem fitsImm12_iff {imm : Word} : fitsImm12 imm = true ↔ -2048 ≤ imm.toInt ∧ imm.toInt ≤ 2047 :=
  decide_eq_true_iff

/-- The arithmetic shift brings bits [31:20] down and fills with bit 31, as the sign extension does. -/
theorem immIOf_eq_sshiftRight (raw : Word) : immIOf raw = raw.sshiftRight 20 := by
  apply BitVec.eq_of_getLsbD_eq
  intro i hi
  rw [getLsbD_immIOf raw hi, BitVec.getLsbD_sshiftRight, BitVec.msb_eq_getLsbD_last]
  by_cases h12 : i < 12
  · simp [h12, show ¬ 32 ≤ i by omega, show 20 + i < 32 by omega]
  · simp [h12, show ¬ 32 ≤ i by omega, show ¬ 20 + i < 32 by omega]

/-! ## The obligations -/

/-- Settles O6: a decoded instruction encodes to its word, which the encoder puts in the instruction's row;
a word of a row has the opcode and function codes of that row, so the dispatch selects it. -/
theorem matchAndMaskSelectRow : Obligations.MatchAndMaskSelectRow := by
  intro raw
  exact ⟨fun i h => mask_of_decode h, fun i h =>
    ⟨i.withOperandsOf raw, decode_of_mask h, maskOf_withOperandsOf i, matchOf_withOperandsOf i⟩⟩

/-- Settles O8: the shift agrees with the sign extension bit by bit, and a sign-extended 12-bit value
fits 12 bits. -/
theorem iTypeImmediateSignExtends : Obligations.ITypeImmediateSignExtends := by
  intro raw
  exact ⟨rfl, immIOf_eq_sshiftRight raw, fitsImm12_iff.mp (fitsImm12_immIOf raw)⟩

end Sys2Proof
end

section
/-! PROOFS. The register-immediate family (spec/42_op_imm.md): the word, the meaning and the result of `addi`. -/

namespace Sys2Proof.Machine

/-! ## The ALU's sum and the write of a result (R142, R22) -/

theorem toNat_aluAdd (a b : Word) : (aluAdd a b).toNat = (a.toNat + b.toNat) % 2 ^ 32 :=
  BitVec.toNat_add a b

/-- What an ALU instruction that writes the result `v` to `x[rd]` owes: the frame, the result read back,
and no effect with `rd = 0`. -/
theorem State.setX_result (s : State) (rd : Reg) (v : Word) :
    s.SameButReg (s.setX rd v) rd ∧ (rd ≠ 0#5 → ((s.setX rd v).x rd).toNat = v.toNat) ∧
      (rd = 0#5 → s.setX rd v = s) := by
  refine ⟨s.sameButReg_setX rd v, fun hrd => ?_, fun hrd => ?_⟩
  · rw [s.x_setX_same v hrd]
  · rw [hrd, State.setX_zero]

/-! ## `addi` (R130) -/

/-- The words of `addi`'s row of R81. -/
theorem decode_addi {raw : Word} (h : raw &&& 0x0000707f#32 = 0x00000013#32) :
    decode raw = .ok (.addi (rdOf raw) (rs1Of raw) (immIOf raw)) :=
  decode_of_opImm_row h (by decide) (by decide)

theorem exec_addi (rd rs1 : Reg) (imm : Word) (s : State) :
    exec (.addi rd rs1 imm) s = .next (s.setX rd (aluAdd (s.x rs1) imm)) := rfl

end Sys2Proof.Machine

namespace Sys2Proof

open Machine in
/-- Settles O50: a word of `addi`'s row decodes to it; its meaning is a write of the ALU's sum to `x[rd]`,
which leaves everything else as it is. -/
theorem addiAddsImmediate : Obligations.AddiAddsImmediate := by
  refine ⟨fun raw h => decode_addi h, fun rd rs1 imm s => ?_⟩
  have hresult := s.setX_result rd (aluAdd (s.x rs1) imm)
  rw [toNat_aluAdd] at hresult
  exact ⟨_, exec_addi rd rs1 imm s, hresult⟩

end Sys2Proof
end

section
/-! PROOFS. The register-register family (spec/43_op.md): the word and the meaning of `add`. -/

namespace Sys2Proof.Machine

/-! ## `add` (R140) -/

/-- The words of `add`'s row of R81. -/
theorem decode_add {raw : Word} (h : raw &&& 0xfe00707f#32 = 0x00000033#32) :
    decode raw = .ok (.add (rdOf raw) (rs1Of raw) (rs2Of raw)) :=
  decode_of_op_row h (by decide) (by decide)

theorem exec_add (rd rs1 rs2 : Reg) (s : State) :
    exec (.add rd rs1 rs2) s = .next (s.setX rd (aluAdd (s.x rs1) (s.x rs2))) := rfl

end Sys2Proof.Machine

namespace Sys2Proof

open Machine in
/-- Settles O51: a word of `add`'s row decodes to it; its meaning is a write of the ALU's sum of the two
source registers to `x[rd]`, which leaves everything else as it is. -/
theorem addAddsRegisters : Obligations.AddAddsRegisters := by
  refine ⟨fun raw h => decode_add h, fun rd rs1 rs2 s => ?_⟩
  have hresult := s.setX_result rd (aluAdd (s.x rs1) (s.x rs2))
  rw [toNat_aluAdd] at hresult
  exact ⟨_, exec_add rd rs1 rs2 s, hresult⟩

end Sys2Proof
end

section
/-! PROOFS. The reset and hazards family (spec/70_reset_and_hazards.md): when a step exists and what the
host's single step reports of it. -/

namespace Sys2Proof.Machine

/-! ## When a step exists (R101) -/

/-- A fetch fault, a rejected word and an executed instruction each answer a next state. -/
theorem step_next_of_running {s : State} (hr : s.status = .running) : ∃ t, step s = .next t := by
  cases hf : s.fetch with
  | error kind => exact ⟨_, step_fetch_error hr hf⟩
  | ok raw =>
    cases hd : decode raw with
    | error j => exact ⟨_, step_reject hr hf hd⟩
    | ok i =>
      obtain ⟨t, ht, -⟩ := exec_effect i s.advance
      exact ⟨t, (step_ok hr hf hd).trans ht⟩

theorem step_fault_of_terminal {s : State} (hs : s.Terminal) : ∃ f, step s = .fault f := by
  cases h : s.status with
  | running => exact absurd h hs
  | halted => exact ⟨_, step_halted h⟩
  | faulted phase kind => exact ⟨_, step_faulted h⟩

/-! ## The host's single step (R197) -/

theorem State.hostStep_of_next {s t : State} (h : step s = .next t) :
    s.hostStep = some (t, t.status) := by
  unfold State.hostStep; rw [h]

theorem State.hostStep_of_fault {s : State} {f : Fault} (h : step s = .fault f) :
    s.hostStep = none := by
  unfold State.hostStep; rw [h]

end Sys2Proof.Machine

namespace Sys2Proof

open Machine in
/-- Settles O30: from `Running` every step answers a next state, which the host gets with its status; in a
terminal status the step answers a fault, and the host gets nothing. -/
theorem hostStepReportsNewStatus : Obligations.HostStepReportsNewStatus := by
  intro s
  refine ⟨fun hr => ?_, fun hs => ?_⟩
  · obtain ⟨t, ht⟩ := step_next_of_running hr
    exact ⟨t, ht, State.hostStep_of_next ht⟩
  · obtain ⟨f, hf⟩ := step_fault_of_terminal hs
    exact State.hostStep_of_fault hf

end Sys2Proof
end

section
/-! PROOFS. The encoding, continued (spec/30_encoding.md): the round trip between words and instructions,
the format of each opcode, the function codes that select nothing, and the S-type immediate. -/

namespace Sys2Proof

section RoundTrip

/-! ## The round trip (R86) -/

/-- The encoder puts every operand where the decoder reads it; only the immediate needs the instruction to
be well-formed. -/
theorem withOperandsOf_encode {i : Instr} (h : i.wellFormed = true) :
    i.withOperandsOf (encode i) = i := by
  cases i with
  | lb | lh | lw | lbu | lhu | addi =>
    simp only [Instr.withOperandsOf, encode, encodeI, rdOf_iType, rs1Of_iType, immIOf_iType _ _ _ _ _ h]
  | add | sub =>
    simp only [Instr.withOperandsOf, encode, encodeR, rdOf_rType, rs1Of_rType, rs2Of_rType]
  | sb | sh | sw =>
    simp only [Instr.withOperandsOf, encode, encodeS, rs1Of_sType, rs2Of_sType, immSOf_sType _ _ _ _ _ h]
  | opcodeZero rest => simp only [Instr.withOperandsOf, encode, restOf_placeAt]

theorem decode_encode {i : Instr} (h : i.wellFormed = true) : decode (encode i) = .ok i := by
  rw [decode_of_mask (encode_and_maskOf i), withOperandsOf_encode h]

variable {raw : Word} {i : Instr}

/-- The decoder's immediates are sign-extended, so its operands are encodable. -/
theorem wellFormed_withOperandsOf (i : Instr) : (i.withOperandsOf raw).wellFormed = true := by
  cases i with
  | lb | lh | lw | lbu | lhu | addi => exact fitsImm12_immIOf raw
  | sb | sh | sw => exact fitsImm12_immSOf raw
  | add | sub | opcodeZero => rfl

theorem eq_withOperandsOf_of_decode (h : decode raw = .ok i) : i = i.withOperandsOf raw :=
  Except.ok.inj (h.symm.trans (decode_of_mask (mask_of_decode h)))

theorem wellFormed_of_decode (h : decode raw = .ok i) : i.wellFormed = true := by
  rw [eq_withOperandsOf_of_decode h]
  exact wellFormed_withOperandsOf i

end RoundTrip

section Formats

/-! ## The format of each opcode (R77 to R79) -/

/-- The opcode is none of the supported five. R79. -/
def UnsupportedOpcode (raw : Word) : Prop :=
  opcodeOf raw ≠ 0x00#7 ∧ opcodeOf raw ≠ 0x03#7 ∧ opcodeOf raw ≠ 0x13#7 ∧ opcodeOf raw ≠ 0x23#7 ∧
    opcodeOf raw ≠ 0x33#7

/-- The first-level decoder's answer for each of the six cases of the opcode. -/
theorem decodeFormat_cases (raw : Word) :
    (opcodeOf raw = 0x00#7 ∧ decodeFormat raw = .opcodeZero) ∨
    ((opcodeOf raw = 0x03#7 ∨ opcodeOf raw = 0x13#7) ∧ decodeFormat raw =
      .format (.iType (opcodeOf raw) (rdOf raw) (rs1Of raw) (immIOf raw) (funct3Of raw))) ∨
    (opcodeOf raw = 0x23#7 ∧ decodeFormat raw =
      .format (.sType (opcodeOf raw) (rs1Of raw) (rs2Of raw) (immSOf raw) (funct3Of raw))) ∨
    (opcodeOf raw = 0x33#7 ∧ decodeFormat raw = .format (.rType (opcodeOf raw) (rdOf raw) (rs1Of raw)
      (rs2Of raw) (funct3Of raw) (funct7Of raw))) ∨
    (UnsupportedOpcode raw ∧ decodeFormat raw = .illegalOpcode raw) := by
  unfold decodeFormat UnsupportedOpcode
  split_ifs with h0 hI hS hR
  · exact .inl ⟨h0, rfl⟩
  · exact .inr (.inl ⟨hI, rfl⟩)
  · exact .inr (.inr (.inl ⟨hS, rfl⟩))
  · exact .inr (.inr (.inr (.inl ⟨hR, rfl⟩)))
  · exact .inr (.inr (.inr (.inr ⟨⟨h0, fun h => hI (.inl h), fun h => hI (.inr h), hS, hR⟩, rfl⟩)))

variable {raw : Word}

theorem decodeFormat_illegalOpcode_iff :
    decodeFormat raw = .illegalOpcode raw ↔ UnsupportedOpcode raw := by
  unfold UnsupportedOpcode
  rcases decodeFormat_cases raw with ⟨ho, hf⟩ | ⟨ho | ho, hf⟩ | ⟨ho, hf⟩ | ⟨ho, hf⟩ | ⟨ho, hf⟩
  · simp [hf, ho]
  · simp [hf, ho]
  · simp [hf, ho]
  · simp [hf, ho]
  · simp [hf, ho]
  · exact iff_of_true hf ho

/-- Which opcodes have which of the three formats. -/
theorem decodeFormat_format_iff (raw : Word) :
    ((∃ opcode rd rs1 imm funct3, decodeFormat raw = .format (.iType opcode rd rs1 imm funct3)) ↔
      opcodeOf raw = 0x03#7 ∨ opcodeOf raw = 0x13#7) ∧
    ((∃ opcode rs1 rs2 imm funct3, decodeFormat raw = .format (.sType opcode rs1 rs2 imm funct3)) ↔
      opcodeOf raw = 0x23#7) ∧
    ((∃ opcode rd rs1 rs2 funct3 funct7,
        decodeFormat raw = .format (.rType opcode rd rs1 rs2 funct3 funct7)) ↔
      opcodeOf raw = 0x33#7) := by
  rcases decodeFormat_cases raw with
    ⟨ho, hf⟩ | ⟨ho | ho, hf⟩ | ⟨ho, hf⟩ | ⟨ho, hf⟩ | ⟨⟨-, hload, hopImm, hstore, hop⟩, hf⟩
  · simp [hf, ho]
  · simp [hf, ho]
  · simp [hf, ho]
  · simp [hf, ho]
  · simp [hf, ho]
  · simp [hf, hload, hopImm, hstore, hop]

theorem decode_of_select {f : Format} {i : Instr} (hf : decodeFormat raw = .format f)
    (hs : select f = some i) : decode raw = .ok i := by
  simp [decode, hf, hs]

theorem decode_of_select_none {f : Format} (hf : decodeFormat raw = .format f)
    (hs : select f = none) : decode raw = .error (.illegalInstruction raw) := by
  simp [decode, hf, hs]

theorem decode_of_unsupported (h : UnsupportedOpcode raw) :
    decode raw = .error (.illegalOpcode raw) := by
  obtain ⟨h0, h1, h2, h3, h4⟩ := h
  exact decode_illegalOpcode h0 h1 h2 h3 h4

/-- A supported opcode whose word lies in no row of the table has an illegal function code. R82. -/
theorem decode_of_no_row (ho : ¬ UnsupportedOpcode raw) (hrow : ∀ i, raw &&& maskOf i ≠ matchOf i) :
    decode raw = .error (.illegalInstruction raw) := by
  cases hd : decode raw with
  | ok i => exact absurd (mask_of_decode hd) (hrow i)
  | error j =>
    rcases decode_error_cases hd with ⟨hf, -⟩ | ⟨f, -, -, rfl⟩
    · exact absurd (decodeFormat_illegalOpcode_iff.mp hf) ho
    · rfl

end Formats

section FunctionCodes

/-! ## Function codes that select nothing (R82) -/

variable {rd rs1 rs2 : Reg} {imm : Word} {funct3 : BitVec 3} {funct7 : BitVec 7}

theorem selectLoad_eq_none (h : funct3 = 3#3 ∨ funct3 = 6#3 ∨ funct3 = 7#3) :
    selectLoad rd rs1 imm funct3 = none := by
  rcases h with rfl | rfl | rfl <;> rfl

theorem selectOpImm_eq_none (h : funct3 ≠ 0#3) : selectOpImm rd rs1 imm funct3 = none := if_neg h

theorem selectStore_eq_none (h : (3#3).ule funct3 = true) : selectStore rs1 rs2 imm funct3 = none := by
  have h0 : funct3 ≠ 0#3 := by rintro rfl; exact absurd h (by decide)
  have h1 : funct3 ≠ 1#3 := by rintro rfl; exact absurd h (by decide)
  have h2 : funct3 ≠ 2#3 := by rintro rfl; exact absurd h (by decide)
  simp [selectStore, h0, h1, h2]

theorem selectOp_eq_none (h : ¬ (funct3 = 0#3 ∧ (funct7 = 0x00#7 ∨ funct7 = 0x20#7))) :
    selectOp rd rs1 rs2 funct3 funct7 = none := by
  rw [selectOp, if_neg (fun hadd => h ⟨hadd.1, .inl hadd.2⟩),
    if_neg (fun hsub => h ⟨hsub.1, .inr hsub.2⟩)]

end FunctionCodes

/-! ## The S-type immediate (R76) -/

/-- The sign extension of a concatenation is the sign-extended high part shifted above the low part. -/
theorem immSOf_eq_signExtend_shiftLeft (raw : Word) :
    immSOf raw =
      ((raw.extractLsb' 25 7).signExtend 32 <<< 5) ||| (raw.extractLsb' 7 5).setWidth 32 := by
  apply BitVec.eq_of_getLsbD_eq
  intro i hi
  rw [getLsbD_immSOf raw hi, BitVec.getLsbD_or, BitVec.getLsbD_shiftLeft, BitVec.getLsbD_signExtend,
    BitVec.msb_eq_getLsbD_last, BitVec.getLsbD_setWidth, BitVec.getLsbD_extractLsb',
    BitVec.getLsbD_extractLsb', BitVec.getLsbD_extractLsb']
  by_cases h5 : i < 5
  · simp [h5, hi]
  · by_cases h12 : i < 12
    · simp [h5, h12, hi, show i - 5 < 32 by omega, show i - 5 < 7 by omega,
        show 25 + (i - 5) = 20 + i by omega]
    · simp [h5, h12, hi, show i - 5 < 32 by omega, show ¬ i - 5 < 7 by omega]

/-- The arithmetic shift by 25 fills with bit 31, as the sign extension of bits [31:25] does. -/
theorem sshiftRight_25_eq_signExtend (raw : Word) :
    raw.sshiftRight 25 = (raw.extractLsb' 25 7).signExtend 32 := by
  apply BitVec.eq_of_getLsbD_eq
  intro i hi
  rw [BitVec.getLsbD_sshiftRight, BitVec.getLsbD_signExtend, BitVec.msb_eq_getLsbD_last,
    BitVec.msb_eq_getLsbD_last, BitVec.getLsbD_extractLsb', BitVec.getLsbD_extractLsb']
  by_cases h7 : i < 7
  · simp [h7, hi, show 25 + i < 32 by omega]
  · simp [h7, hi, show ¬ 25 + i < 32 by omega]

theorem shiftRight_7_and_1f_eq_setWidth (raw : Word) :
    (raw >>> 7) &&& 0x1f#32 = (raw.extractLsb' 7 5).setWidth 32 := by
  apply BitVec.eq_of_toNat_eq
  have hmask : raw.toNat >>> 7 &&& 31 = raw.toNat >>> 7 % 32 := Nat.and_two_pow_sub_one_eq_mod _ 5
  simp only [BitVec.toNat_and, BitVec.toNat_ushiftRight, BitVec.toNat_ofNat, BitVec.toNat_setWidth,
    BitVec.extractLsb'_toNat, Nat.reducePow, Nat.reduceMod, hmask]
  omega

theorem immSOf_eq_sshiftRight_shiftLeft (raw : Word) :
    immSOf raw = (raw.sshiftRight 25 <<< 5) ||| ((raw >>> 7) &&& 0x1f#32) := by
  rw [immSOf_eq_signExtend_shiftLeft, sshiftRight_25_eq_signExtend, shiftRight_7_and_1f_eq_setWidth]

/-! ## The obligations -/

/-- Settles O2: the encoder's word lies in the row of its instruction, so it decodes to the instruction of
that row with the word's operands, which are the instruction's own. -/
theorem encodedInstructionDecodesBack : Obligations.EncodedInstructionDecodesBack :=
  fun _ h => decode_encode h

/-- Settles O3: the dispatch keeps the fields of the format, and the decoder's immediates are
sign-extended. -/
theorem decodedWordEncodesBack : Obligations.DecodedWordEncodesBack :=
  fun _ _ h => ⟨encode_of_decode h, wellFormed_of_decode h⟩

/-- Settles O4: each format the decoder answers is made of the word's own fields. -/
theorem formatKeepsEveryBit : Obligations.FormatKeepsEveryBit := by
  intro raw f h
  refine ⟨word_of_decodeFormat h, ?_⟩
  rcases decodeFormat_cases raw with ⟨-, hf⟩ | ⟨-, hf⟩ | ⟨-, hf⟩ | ⟨-, hf⟩ | ⟨-, hf⟩ <;>
    rw [hf] at h <;> cases h
  · exact ⟨rfl, rfl, rfl, rfl, rfl⟩
  · exact ⟨rfl, rfl, rfl, rfl, rfl⟩
  · exact ⟨rfl, rfl, rfl, rfl, rfl, rfl⟩

/-- Settles O5: in each of the six cases of the opcode the decoder has one answer. -/
theorem opcodeSelectsFormat : Obligations.OpcodeSelectsFormat := by
  intro raw
  obtain ⟨hI, hS, hR⟩ := decodeFormat_format_iff raw
  exact ⟨decodeFormat_opcodeZero_iff, hI, hS, hR, decodeFormat_illegalOpcode_iff⟩

/-- Settles O7: under each supported opcode the dispatch of that opcode alone decides, and it selects
nothing for these function codes. -/
theorem illegalFunctionCodesRejected : Obligations.IllegalFunctionCodesRejected := by
  intro raw
  refine ⟨fun ho hc => ?_, fun ho hc => ?_, fun ho hc => ?_, fun ho hc => ?_⟩
  · rw [decode_load ho, selectLoad_eq_none (funct3 := funct3Of raw) hc, ofSelect]
  · rw [decode_opImm ho, selectOpImm_eq_none (funct3 := funct3Of raw) hc, ofSelect]
  · rw [decode_store ho, selectStore_eq_none (funct3 := funct3Of raw) hc, ofSelect]
  · rw [decode_op ho, selectOp_eq_none (funct3 := funct3Of raw) (funct7 := funct7Of raw) hc, ofSelect]

/-- Settles O9: both computations agree with the sign extension bit by bit, and a sign-extended 12-bit value
fits 12 bits. -/
theorem sTypeImmediateSignExtends : Obligations.STypeImmediateSignExtends := by
  intro raw
  exact ⟨rfl, immSOf_eq_signExtend_shiftLeft raw, immSOf_eq_sshiftRight_shiftLeft raw,
    fitsImm12_iff.mp (fitsImm12_immSOf raw)⟩

/-- Settles O1: the five words, decoded. -/
theorem writtenWordsDecode : Obligations.WrittenWordsDecode := by
  unfold Obligations.WrittenWordsDecode
  decide

end Sys2Proof
end

section
/-! PROOFS. The invariant and the constants of a machine (spec/10_state.md): the recorded status of every
stop is sound, every move keeps the RAM in order, `RAM_BASE` and the grid of the pc. -/

namespace Sys2Proof.Machine

/-! ## The RAM's order does not depend on pc, registers and status -/

@[simp] theorem State.advance_memOk (s : State) : s.advance.memOk = s.memOk := rfl
@[simp] theorem State.reject_memOk (s : State) (j : Reject) : (s.reject j).memOk = s.memOk := by
  cases j <;> rfl

/-! ## The recorded status of a stop is sound (R161 to R166) -/

theorem Status.sound_of_fetch_fault {base : Config.RamBase} {addr : Word} {kind : FaultKind}
    (h : accessFault base addr 4 = some kind) : (Status.faulted .fetch kind).sound base = true := by
  rcases accessFault_cases base addr 4 with ⟨ha, -⟩ | ⟨ha, -⟩ | ⟨ha, -⟩ <;> rw [ha] at h <;> cases h
  · exact beq_iff_eq.mpr ha
  · exact beq_iff_eq.mpr ha

theorem Status.sound_of_data_fault {base : Config.RamBase} {addr : Word} {n : Nat} {kind : FaultKind}
    (hn : n = 1 ∨ n = 2 ∨ n = 4) (h : accessFault base addr n = some kind) :
    (Status.faulted .execute kind).sound base = true := by
  rcases accessFault_cases base addr n with ⟨ha, -⟩ | ⟨ha, hbelow⟩ | ⟨ha, -⟩ <;> rw [ha] at h <;> cases h
  · exact decide_eq_true hbelow
  · rcases hn with rfl | rfl | rfl <;> exact beq_iff_eq.mpr ha

theorem State.sound_reject {s : State} {base : Config.RamBase} {raw : Word} {j : Reject}
    (h : decode raw = .error j) : (s.reject j).status.sound base = true := by
  rcases decode_error_cases h with ⟨hf, rfl⟩ | ⟨f, -, -, rfl⟩
  · exact beq_iff_eq.mpr hf
  · exact beq_iff_eq.mpr h

/-- Every data access is one of 1, 2 or 4 bytes. R47. -/
theorem dataAccess_size {s : State} {i : Instr} {addr : Word} {n : Nat}
    (h : dataAccess s i = some (addr, n)) : n = 1 ∨ n = 2 ∨ n = 4 := by
  cases i <;> cases h <;> decide

theorem Effect.sound {i : Instr} {s t : State} (h : Effect i s t)
    (hs : s.status.sound s.ramBase = true) : t.status.sound t.ramBase = true := by
  cases h with
  | reg v hd ha => rwa [State.setX_status, State.setX_ramBase]
  | bytes ha hst h => exact hs
  | stop ha h => exact Status.sound_of_data_fault (dataAccess_size ha) h
  | halt hi => rfl

/-- Every step records a sound status, for it begins in `Running`. -/
theorem step_status_sound {s t : State} (h : step s = .next t) :
    t.status.sound t.ramBase = true := by
  obtain ⟨hrun, ⟨kind, ha, -, rfl⟩ | ⟨raw, j, -, -, hd, rfl⟩ | ⟨raw, i, -, -, -, -, he⟩⟩ := step_cases h
  · exact Status.sound_of_fetch_fault ha
  · exact State.sound_reject hd
  · exact he.sound (by rw [State.advance_status, hrun]; rfl)

/-! ## Moves keep the invariant -/

theorem step_memOk {s t : State} (hs : s.memOk = true) (h : step s = .next t) : t.memOk = true := by
  obtain ⟨-, ⟨kind, -, -, rfl⟩ | ⟨raw, j, -, -, -, rfl⟩ | ⟨raw, i, -, -, -, -, he⟩⟩ := step_cases h
  · exact hs
  · simpa using hs
  · exact he.memOk hs

theorem State.Inv.step {s t : State} (hs : s.Inv) (h : Machine.step s = .next t) : t.Inv :=
  ⟨step_memOk hs.1 h, step_status_sound h⟩

theorem State.Inv.hostWriteMem {s : State} (hs : s.Inv) (k : Fin Config.memSize) (b : Byte) :
    (s.hostWriteMem k b).Inv := ⟨State.memOk_hostWriteMem hs.1 k b, hs.2⟩

theorem State.inv_construct (base : Config.RamBase) (image : List Byte) :
    (State.construct base image).Inv := ⟨State.memOk_construct base image, rfl⟩

/-! ## What a step does to `RAM_BASE` and to the pc (R35, R26) -/

theorem step_ramBase {s t : State} (h : step s = .next t) : t.ramBase = s.ramBase := by
  obtain ⟨-, ⟨kind, -, -, rfl⟩ | ⟨raw, j, -, -, -, rfl⟩ | ⟨raw, i, -, -, -, -, he⟩⟩ := step_cases h
  · rfl
  · simp
  · exact he.ramBase

theorem step_pc_of_fetch_ok {s t : State} {raw : Word} (h : step s = .next t)
    (hf : s.fetch = .ok raw) : t.pc = s.pc + 4#32 := by
  obtain ⟨-, ⟨kind, -, hf', rfl⟩ | ⟨raw', j, -, -, -, rfl⟩ | ⟨raw', i, -, -, -, -, he⟩⟩ := step_cases h
  · rw [hf] at hf'; cases hf'
  · simp
  · exact he.pc

theorem step_pc_of_fetch_error {s t : State} {kind : FaultKind} (h : step s = .next t)
    (hf : s.fetch = .error kind) : t.pc = s.pc := by
  rw [step_fetch_error (step_cases h).1 hf] at h
  cases h
  rfl

/-! ## The grid of the pc (R27, R109) -/

/-- The RAM ends at or below 2^32. R41. -/
theorem ramBase_le (base : Config.RamBase) : base.val ≤ 2 ^ 32 - 4096 := Nat.le_of_lt_succ base.isLt

/-- The range of an access without a fault, the RAM's size as a numeral. -/
theorem range_of_accessFault_none {base : Config.RamBase} {addr : Word} {n : Nat}
    (h : accessFault base addr n = none) :
    base.val ≤ addr.toNat ∧ addr.toNat + n ≤ base.val + 4096 := accessFault_none.mp h

/-- A word of the grid at which a fetch succeeds is not the one past the RAM. -/
theorem grid_lt_of_fetchable {base : Config.RamBase} {k : Nat} (hk : k ≤ 1024)
    (h : accessFault base (BitVec.ofNat 32 (base.val + 4 * k)) 4 = none) : k < 1024 := by
  rcases Nat.lt_or_eq_of_le hk with hlt | rfl
  · exact hlt
  · have hbase := ramBase_le base
    have hrange := range_of_accessFault_none h
    rw [BitVec.toNat_ofNat] at hrange
    omega

/-- The pc is one of the 1025 words `RAM_BASE + 4k`, modulo 2^32. -/
def State.OnGrid (s : State) : Prop := ∃ k ≤ 1024, s.pc = BitVec.ofNat 32 (s.ramBase.val + 4 * k)

theorem State.onGrid_construct (base : Config.RamBase) (image : List Byte) :
    (State.construct base image).OnGrid := ⟨0, by omega, rfl⟩

theorem step_keeps_onGrid {s t : State} (hs : s.OnGrid) (h : step s = .next t) : t.OnGrid := by
  obtain ⟨k, hk, hpc⟩ := hs
  unfold State.OnGrid
  rw [step_ramBase h]
  rcases s.fetch_cases with ⟨kind, -, hf⟩ | ⟨ha, hf⟩
  · exact ⟨k, hk, (step_pc_of_fetch_error h hf).trans hpc⟩
  · rw [hpc] at ha
    refine ⟨k + 1, grid_lt_of_fetchable hk ha, ?_⟩
    rw [step_pc_of_fetch_ok h hf, hpc, ← BitVec.ofNat_add]
    rfl

/-! ## Induction over the reachable states -/

/-- What holds of every constructed machine and is kept by every step and every host write holds of every
reachable state. -/
theorem Reachable.induct {P : State → Prop} {base : Config.RamBase} {s : State} (h : Reachable base s)
    (hconstruct : ∀ image, P (State.construct base image))
    (hstep : ∀ s t, P s → step s = .next t → P t)
    (hwrite : ∀ s k b, P s → P (s.hostWriteMem k b)) : P s := by
  induction h with
  | construct image => exact hconstruct image
  | move _ m ih =>
    cases m with
    | step h => exact hstep _ _ ih h
    | hostWrite k b => exact hwrite _ k b ih

theorem Reachable.ramBase {base : Config.RamBase} {s : State} (h : Reachable base s) :
    s.ramBase = base :=
  h.induct (P := fun s => s.ramBase = base) (fun _ => rfl)
    (fun _ _ hs hstep => (step_ramBase hstep).trans hs) (fun _ _ _ hs => hs)

theorem Reachable.onGrid {base : Config.RamBase} {s : State} (h : Reachable base s) : s.OnGrid :=
  h.induct (State.onGrid_construct base) (fun _ _ => step_keeps_onGrid) (fun _ _ _ hs => hs)

end Sys2Proof.Machine

namespace Sys2Proof

open Machine

/-- Settles O22: a step records a status that its own fault or rejected word gives, and writes memory only
within the RAM; a host write touches one byte of the RAM. -/
theorem invariantKeptByEveryMove : Obligations.InvariantKeptByEveryMove := by
  intro s t hs hmove
  cases hmove with
  | step h => exact hs.step h
  | hostWrite k b => exact hs.hostWriteMem k b

/-- Settles O23: an image's store is in order, and the status is `Running`. -/
theorem constructionEstablishesInvariant : Obligations.ConstructionEstablishesInvariant :=
  ⟨State.inv_construct, State.inv_construct _ _⟩

/-- Settles O24: no shape of a step, and no host write, touches `RAM_BASE`. -/
theorem ramBaseNeverChanges : Obligations.RamBaseNeverChanges := by
  intro s t hmove
  cases hmove with
  | step h => exact step_ramBase h
  | hostWrite k b => rfl

/-- Settles O18: whether the fetch gives a word decides the pc. -/
theorem pcAdvancesByFour : Obligations.PcAdvancesByFour :=
  fun _ _ h => ⟨fun _ => step_pc_of_fetch_ok h, fun _ => step_pc_of_fetch_error h⟩

/-- Settles O25: the pc starts on the grid and moves by 4; from the word past the RAM no fetch succeeds. -/
theorem pcStaysOnWordGrid : Obligations.PcStaysOnWordGrid := by
  intro base s hs
  have hgrid := hs.onGrid
  rwa [State.OnGrid, hs.ramBase] at hgrid

end Sys2Proof
end

section
/-! PROOFS. The memory primitives and the memory interface (spec/20_memory.md): what a read and a write give
in each region of the address map, byte order, and a stored value read back in part or in whole. -/

namespace Sys2Proof.Machine

/-! ## Addresses in the RAM (R41) -/

section Regions

variable {s : State} {addr : Word} {n : Nat}

theorem State.InRam.range (h : s.InRam addr n) :
    s.ramBase.val ≤ addr.toNat ∧ addr.toNat + n ≤ s.ramBase.val + 4096 :=
  range_of_accessFault_none h.accessFault

/-- An address within an access in the RAM does not wrap. -/
theorem State.InRam.toNat_add_ofNat (h : s.InRam addr n) {k : Nat} (hk : k < n) :
    (addr + BitVec.ofNat 32 k).toNat = addr.toNat + k := by
  have hrange := h.range
  have hbase := ramBase_le s.ramBase
  rw [BitVec.toNat_add, BitVec.toNat_ofNat]
  omega

/-- A part of an access in the RAM lies in the RAM. -/
theorem State.InRam.part (h : s.InRam addr n) {k m : Nat} (hm : 0 < m) (hk : k + m ≤ n) :
    s.InRam (addr + BitVec.ofNat 32 k) m := by
  have hrange := h.range
  unfold State.InRam Config.memSize
  rw [h.toNat_add_ofNat (by omega)]
  omega

/-- `MEM[index + k]` is the byte at address `addr + k`. R43. -/
theorem State.memByte_of_addr (h : s.ramBase.val ≤ addr.toNat) (k : Nat) :
    s.memByte (addr.toNat - s.ramBase.val + k) = s.mem.read (addr.toNat + k) := by
  rw [State.memByte, ← Nat.add_assoc, Nat.add_sub_cancel' h]

theorem accessFault_eq_some_iff {base : Config.RamBase} {kind : FaultKind} :
    accessFault base addr n = some kind ↔
      addr.toNat < base.val ∧ kind = .unmapped addr ∨
      base.val ≤ addr.toNat ∧ addr.toNat - base.val + n > 4096 ∧ kind = .outOfBounds addr n := by
  rcases accessFault_cases base addr n with ⟨ha, hlo, hhi⟩ | ⟨ha, hlo⟩ | ⟨ha, hlo, hhi⟩
  · simp only [ha, reduceCtorEq, false_iff]
    rintro (⟨hlt, -⟩ | ⟨-, hgt, -⟩)
    · omega
    · exact absurd hgt (by unfold Config.memSize at hhi; omega)
  · simp [ha, hlo, show ¬ base.val ≤ addr.toNat by omega, eq_comm]
  · simp [ha, hlo, hhi, show ¬ addr.toNat < base.val by omega, eq_comm]

end Regions

/-! ## Reads (R43, R46) -/

/-- The little-endian number of a run of bytes, as a sum. -/
theorem leValue_readBytes (m : Memory) (a n : Nat) :
    leValue (m.readBytes a n) = ∑ k ∈ Finset.range n, (m.read (a + k)).toNat * 2 ^ (8 * k) := by
  induction n generalizing a with
  | zero => rfl
  | succ n ih =>
    rw [Memory.readBytes, leValue, ih, Finset.sum_range_succ', Finset.mul_sum]
    have hshift : ∀ k, 256 * ((m.read (a + 1 + k)).toNat * 2 ^ (8 * k)) =
        (m.read (a + (k + 1))).toNat * 2 ^ (8 * (k + 1)) := fun k => by
      rw [Nat.mul_add, pow_add, Nat.add_assoc, Nat.add_comm 1 k]
      ring
    rw [Finset.sum_congr rfl fun k _ => hshift k]
    simp [Nat.add_comm]

theorem leValue_readBytes_one (m : Memory) (a : Nat) : leValue (m.readBytes a 1) = (m.read a).toNat := by
  simp [Memory.readBytes, leValue]

section Reads

variable {s : State} {addr : Word} {n : Nat}

theorem State.memRead_of_inRam (h : s.InRam addr n) :
    s.memRead addr n = .ok (∑ k ∈ Finset.range n, (s.mem.read (addr.toNat + k)).toNat * 2 ^ (8 * k)) := by
  rw [State.memRead_ok h.accessFault, leValue_readBytes]

theorem State.memRead_byte (h : s.InRam addr n) {k : Nat} (hk : k < n) :
    s.memRead (addr + BitVec.ofNat 32 k) 1 = .ok (s.mem.read (addr.toNat + k)).toNat := by
  rw [State.memRead_ok (h.part Nat.one_pos hk).accessFault, leValue_readBytes_one, h.toNat_add_ofNat hk]

theorem State.memRead_error_iff {kind : FaultKind} :
    s.memRead addr n = .error kind ↔ accessFault s.ramBase addr n = some kind := by
  cases h : accessFault s.ramBase addr n with
  | none => simp [State.memRead_ok h]
  | some kind' => simp [State.memRead_error h]

theorem State.memWrite_error_iff {v : Nat} {kind : FaultKind} :
    s.memWrite addr n v = .error kind ↔ accessFault s.ramBase addr n = some kind := by
  cases h : accessFault s.ramBase addr n with
  | none => simp [State.memWrite_ok h]
  | some kind' => simp [State.memWrite_error h]

end Reads

/-! ## Writes (R44) -/

theorem leValue_leBytes_two_pow (n v : Nat) : leValue (leBytes n v) = v % 2 ^ (8 * n) := by
  rw [leValue_leBytes, pow_mul]
  rfl

/-- The state after the low `n` bytes of `v` have been stored from `addr` on. -/
def State.stored (s : State) (addr : Word) (n v : Nat) : State :=
  { s with mem := s.mem.writeBytes addr.toNat (leBytes n v) }

section Writes

variable {s : State} {addr : Word} {n : Nat}

@[simp] theorem State.stored_ramBase (s : State) (addr : Word) (n v : Nat) :
    (s.stored addr n v).ramBase = s.ramBase := rfl
@[simp] theorem State.stored_pc (s : State) (addr : Word) (n v : Nat) :
    (s.stored addr n v).pc = s.pc := rfl

theorem State.memWrite_of_inRam (h : s.InRam addr n) (v : Nat) :
    s.memWrite addr n v = .ok (s.stored addr n v) := State.memWrite_ok h.accessFault v

theorem State.memWrite_eq_ok {t : State} {v : Nat} (h : s.memWrite addr n v = .ok t) :
    s.InRam addr n ∧ t = s.stored addr n v := by
  cases ha : accessFault s.ramBase addr n with
  | some kind => rw [State.memWrite_error ha] at h; cases h
  | none =>
    have hin := accessFault_none_inRam ha
    rw [State.memWrite_of_inRam hin] at h
    exact ⟨hin, (Except.ok.inj h).symm⟩

theorem State.InRam.stored {a : Word} {m : Nat} (h : s.InRam a m) (v : Nat) :
    (s.stored addr n v).InRam a m := h

theorem State.sameButBytes_stored (s : State) (addr : Word) (n v : Nat) :
    s.SameButBytes (s.stored addr n v) addr.toNat n := by
  have hframe := s.sameButBytes_writeBytes addr.toNat (leBytes n v)
  rwa [length_leBytes] at hframe

theorem State.read_stored_inside (hs : s.memOk = true) (addr : Word) (v : Nat) {k : Nat} (hk : k < n) :
    (s.stored addr n v).mem.read (addr.toNat + k) = BitVec.ofNat 8 (v / 2 ^ (8 * k)) :=
  Memory.read_writeBytes_leBytes (State.memOk_iff.mp hs).1 addr.toNat v hk

theorem State.read_stored_outside {a v : Nat} (h : a < addr.toNat ∨ addr.toNat + n ≤ a) :
    (s.stored addr n v).mem.read a = s.mem.read a := (s.sameButBytes_stored addr n v).mem a h

/-- A part of the stored bytes is the bytes of the value from that part's bit on. -/
theorem State.readBytes_stored (hs : s.memOk = true) (addr : Word) (v : Nat) {k m : Nat} (hk : k + m ≤ n) :
    (s.stored addr n v).mem.readBytes (addr.toNat + k) m = leBytes m (v / 2 ^ (8 * k)) := by
  apply List.ext_getElem?
  intro j
  by_cases hj : j < m
  · rw [Memory.readBytes_getElem? _ _ hj, leBytes_getElem? _ hj, Nat.add_assoc,
      State.read_stored_inside hs addr v (show k + j < n by omega), Nat.div_div_eq_div_mul, ← pow_add,
      Nat.mul_add]
  · rw [List.getElem?_eq_none (by simpa using hj), List.getElem?_eq_none (by simpa using hj)]

/-- A read of `m` bytes at offset `k` of a stored value gives the value's bits [8(k+m)-1:8k]. R45, R61. -/
theorem State.memRead_stored (hs : s.memOk = true) (hin : s.InRam addr n) (v : Nat) {k m : Nat}
    (hm : 0 < m) (hk : k + m ≤ n) :
    (s.stored addr n v).memRead (addr + BitVec.ofNat 32 k) m = .ok (v / 2 ^ (8 * k) % 2 ^ (8 * m)) := by
  rw [State.memRead_ok ((hin.part hm hk).stored v).accessFault, hin.toNat_add_ofNat (by omega),
    State.readBytes_stored hs addr v hk, leValue_leBytes_two_pow]

theorem State.memRead_stored_whole (hs : s.memOk = true) (hin : s.InRam addr n) (v : Nat) :
    (s.stored addr n v).memRead addr n = .ok (v % 2 ^ (8 * n)) := by
  have hbytes := State.readBytes_stored hs addr v (k := 0) (m := n) (n := n) (by omega)
  simp only [Nat.add_zero, Nat.mul_zero, pow_zero, Nat.div_one] at hbytes
  rw [State.memRead_ok (hin.stored v).accessFault, hbytes, leValue_leBytes_two_pow]

end Writes

/-! ## The fetch (R53) -/

theorem State.fetch_of_memRead {s : State} {v : Nat} (h : s.memRead s.pc 4 = .ok v) :
    s.fetch = .ok (BitVec.ofNat 32 v) := by
  rw [State.fetch, State.load_eq_memRead s s.pc rfl]
  exact congrArg (Except.map (BitVec.ofNat 32)) h

/-- The fetch of a stored word. -/
theorem State.fetch_stored {s : State} (hs : s.memOk = true) (hin : s.InRam s.pc 4) (v : Word) :
    (s.stored s.pc 4 v.toNat).fetch = .ok v := by
  rw [State.fetch_of_memRead (State.memRead_stored_whole hs hin v.toNat), Nat.mod_eq_of_lt v.isLt,
    BitVec.ofNat_toNat, BitVec.setWidth_eq]

theorem widthSupported_eq_false {width : Nat} (h8 : width ≠ 8) (h16 : width ≠ 16) (h32 : width ≠ 32)
    (h64 : width ≠ 64) : widthSupported width = false := by
  simp [widthSupported, h8, h16, h32, h64]

end Sys2Proof.Machine

namespace Sys2Proof

open Machine

/-- Settles O31: the check decides the region; in the RAM the bytes make their little-endian sum. -/
theorem memReadSumsBytes : Obligations.MemReadSumsBytes := by
  intro s addr n
  refine ⟨fun h => State.memRead_error (h.accessFault n), fun h => State.memRead_error h.accessFault,
    fun h => ?_⟩
  simp only [State.memByte_of_addr h.1]
  exact State.memRead_of_inRam h

/-- Settles O32: the check decides the region; in the RAM each byte of the value is stored, and a store of
`n` bytes reaches no other. -/
theorem memWriteStoresBytes : Obligations.MemWriteStoresBytes := by
  intro s addr n v hs
  refine ⟨fun h => State.memWrite_error (h.accessFault n) v,
    fun h => State.memWrite_error h.accessFault v, fun h => ?_⟩
  refine ⟨s.stored addr n v, State.memWrite_of_inRam h v, fun k hk => ?_, s.sameButBytes_stored addr n v⟩
  rw [← s.stored_ramBase addr n v, State.memByte_of_addr (s := s.stored addr n v) h.1]
  exact State.read_stored_inside hs addr v hk

/-- Settles O33: the stored bytes are those of the value, and a byte outside the store is read as before. -/
theorem writeThenReadRoundTrip : Obligations.WriteThenReadRoundTrip := by
  intro s t addr n v hs hw
  obtain ⟨hin, rfl⟩ := State.memWrite_eq_ok hw
  refine ⟨State.memRead_stored_whole hs hin v, fun j hj => ?_⟩
  have hlo := hin.1
  exact State.read_stored_outside (by rw [State.stored_ramBase]; omega)

/-- Settles O34: byte, halfword and fetch each read a part of the four stored bytes. -/
theorem wordIsLittleEndian : Obligations.WordIsLittleEndian := by
  intro s t addr v hs hw
  rw [State.store_eq_memWrite s addr rfl] at hw
  obtain ⟨hin, rfl⟩ := State.memWrite_eq_ok hw
  refine ⟨fun k hk => ?_, fun k hk => ?_, ?_⟩
  · rw [State.load_eq_memRead _ _ rfl]
    exact State.memRead_stored hs hin v.toNat Nat.one_pos hk
  · rw [State.load_eq_memRead _ _ rfl]
    exact State.memRead_stored hs hin v.toNat Nat.two_pos (by omega)
  · exact State.fetch_stored (s := { s with pc := addr }) hs hin v

/-- Settles O35: each single-byte read lies within the access, and the sum is of these bytes. -/
theorem misalignedReadIsBytewise : Obligations.MisalignedReadIsBytewise :=
  fun s addr _ h => ⟨fun k => (s.mem.read (addr.toNat + k)).toNat,
    fun _ hk => State.memRead_byte h hk, State.memRead_of_inRam h⟩

/-- Settles O36: reads and writes fault exactly as the shared check says. -/
theorem accessFaultsByFirstCheck : Obligations.AccessFaultsByFirstCheck := by
  intro s addr n v kind
  rw [State.memRead_error_iff, State.memWrite_error_iff]
  exact ⟨accessFault_eq_some_iff, Iff.rfl⟩

/-- Settles O37: the width is checked first, and a supported one is an access of an eighth as many bytes. -/
theorem unsupportedWidthRejected : Obligations.UnsupportedWidthRejected := by
  intro s addr width v
  refine ⟨fun h8 h16 h32 h64 => ?_, rfl, rfl, rfl, rfl, rfl, rfl, rfl, rfl⟩
  have hw := widthSupported_eq_false h8 h16 h32 h64
  exact ⟨s.load_unsupported addr hw, s.store_unsupported addr hw v⟩

end Sys2Proof
end

section
/-! PROOFS. Registers, the ALU, loads and stores (spec/41_loads.md, spec/43_op.md, spec/44_stores.md): the
shared body of the five loads and of the three stores in each region of the address map, and a store seen by the
next fetch. -/

namespace Sys2Proof.Machine

/-! ## `sub` (R141, R142) -/

theorem toNat_aluSub (a b : Word) : (aluSub a b).toNat = (a.toNat + 2 ^ 32 - b.toNat) % 2 ^ 32 := by
  have hb := b.isLt
  rw [aluSub, BitVec.toNat_sub]
  congr 1
  omega

/-- The words of `sub`'s row of R81. -/
theorem decode_sub {raw : Word} (h : raw &&& 0xfe00707f#32 = 0x40000033#32) :
    decode raw = .ok (.sub (rdOf raw) (rs1Of raw) (rs2Of raw)) :=
  decode_of_op_row h (by decide) (by decide)

theorem exec_sub (rd rs1 rs2 : Reg) (s : State) :
    exec (.sub rd rs1 rs2) s = .next (s.setX rd (aluSub (s.x rs1) (s.x rs2))) := rfl

/-! ## The shared body of the loads (R120) -/

section Loads

variable {s : State} {rd : Reg} {addr : Word} {width : Nat} {widen : Nat → Word}

/-- A load in each region: the frame and the widened value, or the fault alone. -/
theorem State.loadTo_regions (hw : widthSupported width = true) {w : Word}
    (hwiden : widen (leValue (s.mem.readBytes addr.toNat (width / 8))) = w) {r : Result}
    (hr : r = .next (s.loadTo rd addr width widen)) :
    (s.InRam addr (width / 8) → ∃ t, r = .next t ∧ s.SameButReg t rd ∧ (rd ≠ 0#5 → t.x rd = w) ∧
      (rd = 0#5 → t = s)) ∧
    (s.BelowRam addr → r = .next { s with status := .faulted .execute (.unmapped addr) }) ∧
    (s.PastRam addr (width / 8) →
      r = .next { s with status := .faulted .execute (.outOfBounds addr (width / 8)) }) := by
  subst hwiden hr
  refine ⟨fun h => ?_, fun h => ?_, fun h => ?_⟩
  · rw [State.loadTo_ok hw h.accessFault]
    exact ⟨_, rfl, s.sameButReg_setX rd _, fun hrd => s.x_setX_same _ hrd,
      fun hrd => by rw [hrd, State.setX_zero]⟩
  · rw [State.loadTo_error hw (h.accessFault _)]
    rfl
  · rw [State.loadTo_error hw h.accessFault]
    rfl

/-! The widened value of the bytes read (R47). -/

theorem widenSigned_readBytes_one (m : Memory) (a : Nat) :
    widenSigned 8 (leValue (m.readBytes a 1)) = (m.read a).signExtend 32 := by
  rw [widenSigned, ofNat_readBytes_one, sext32]

theorem widenSigned_readBytes_two (m : Memory) (a : Nat) :
    widenSigned 16 (leValue (m.readBytes a 2)) = (m.read (a + 1) ++ m.read a).signExtend 32 := by
  rw [widenSigned, ofNat_readBytes_two, sext32]

theorem widenZero_readBytes_one (m : Memory) (a : Nat) :
    widenZero 8 (leValue (m.readBytes a 1)) = (m.read a).setWidth 32 := by
  rw [widenZero, ofNat_readBytes_one, zext32]

theorem widenZero_readBytes_two (m : Memory) (a : Nat) :
    widenZero 16 (leValue (m.readBytes a 2)) = (m.read (a + 1) ++ m.read a).setWidth 32 := by
  rw [widenZero, ofNat_readBytes_two, zext32]

end Loads

/-! ## The shared body of the stores (R150) -/

section Stores

variable {s : State} {addr : Word} {width : Nat} {v : Word}

theorem ofNat_div_eq_extractLsb' (v : Word) (k : Nat) :
    BitVec.ofNat 8 (v.toNat / 2 ^ (8 * k)) = v.extractLsb' (8 * k) 8 := by
  rw [BitVec.extractLsb', Nat.shiftRight_eq_div_pow]

theorem State.storeFrom_of_inRam (hw : widthSupported width = true) (h : s.InRam addr (width / 8))
    (v : Word) : s.storeFrom addr width v = s.stored addr (width / 8) v.toNat := State.storeFrom_ok hw h.accessFault v

/-- A store in each region: the frame and the stored bytes, or the fault alone. -/
theorem State.storeFrom_regions (hw : widthSupported width = true) {r : Result}
    (hr : r = .next (s.storeFrom addr width v)) :
    (s.InRam addr (width / 8) → ∃ t, r = .next t ∧ s.SameButBytes t addr.toNat (width / 8) ∧
      (s.memOk = true → ∀ k < width / 8, t.mem.read (addr.toNat + k) = v.extractLsb' (8 * k) 8)) ∧
    (s.BelowRam addr → r = .next { s with status := .faulted .execute (.unmapped addr) }) ∧
    (s.PastRam addr (width / 8) →
      r = .next { s with status := .faulted .execute (.outOfBounds addr (width / 8)) }) := by
  subst hr
  refine ⟨fun h => ?_, fun h => ?_, fun h => ?_⟩
  · rw [State.storeFrom_of_inRam hw h]
    refine ⟨_, rfl, s.sameButBytes_stored addr _ _, fun hs k hk => ?_⟩
    rw [State.read_stored_inside hs addr _ hk, ofNat_div_eq_extractLsb']
  · rw [State.storeFrom_error hw (h.accessFault _)]
    rfl
  · rw [State.storeFrom_error hw h.accessFault]
    rfl

end Stores

/-! ## A store and the fetch (R56) -/

/-- Every byte list is the little-endian form of its number. -/
theorem leBytes_leValue (bs : List Byte) : leBytes bs.length (leValue bs) = bs := by
  induction bs with
  | nil => rfl
  | cons b bs ih =>
    have hb := b.isLt
    have hlow : BitVec.ofNat 8 (b.toNat + 256 * leValue bs) = b := by
      apply BitVec.eq_of_toNat_eq
      rw [BitVec.toNat_ofNat]
      omega
    have hhigh : (b.toNat + 256 * leValue bs) / 256 = leValue bs := by omega
    rw [List.length_cons, leValue, leBytes, hlow, hhigh, ih]

/-- Byte `k` of the word that four bytes make. -/
theorem extractLsb'_ofNat_readBytes_four (m : Memory) (a : Nat) {k : Nat} (hk : k < 4) :
    (BitVec.ofNat 32 (leValue (m.readBytes a 4))).extractLsb' (8 * k) 8 = m.read (a + k) := by
  have hlt := leValue_lt (m.readBytes a 4)
  have hbytes := leBytes_leValue (m.readBytes a 4)
  rw [Memory.readBytes_length] at hlt hbytes
  have hbyte := m.readBytes_getElem? a hk
  rw [← hbytes, leBytes_getElem? _ hk] at hbyte
  rw [← ofNat_div_eq_extractLsb', BitVec.toNat_ofNat, Nat.mod_eq_of_lt (show _ < 2 ^ 32 from hlt)]
  exact Option.some.inj hbyte

/-- The word fetched, byte by byte. -/
theorem State.fetch_bytes {s : State} (h : s.InRam s.pc 4) :
    ∃ raw, s.fetch = .ok raw ∧ ∀ k < 4, raw.extractLsb' (8 * k) 8 = s.mem.read (s.pc.toNat + k) :=
  ⟨_, State.fetch_ok h.accessFault, fun _ hk => extractLsb'_ofNat_readBytes_four _ _ hk⟩

theorem exec_store_of_inRam {s : State} {i : Instr} {rs1 rs2 : Reg} {imm : Word} {n : Nat}
    (hi : i = .sb rs1 rs2 imm ∧ n = 1 ∨ i = .sh rs1 rs2 imm ∧ n = 2 ∨ i = .sw rs1 rs2 imm ∧ n = 4)
    (h : s.InRam (s.x rs1 + imm) n) :
    exec i s = .next (s.stored (s.x rs1 + imm) n (s.x rs2).toNat) := by
  rcases hi with ⟨rfl, rfl⟩ | ⟨rfl, rfl⟩ | ⟨rfl, rfl⟩
  · exact congrArg _ (State.storeFrom_of_inRam (width := 8) rfl h _)
  · exact congrArg _ (State.storeFrom_of_inRam (width := 16) rfl h _)
  · exact congrArg _ (State.storeFrom_of_inRam (width := 32) rfl h _)

end Sys2Proof.Machine

namespace Sys2Proof

open Machine

/-- Settles O43: entry 0 has no storage, and a write touches the one entry of its register. -/
theorem registerZeroIsConstant : Obligations.RegisterZeroIsConstant :=
  fun s r v => ⟨s.x_zero, s.setX_zero v, s.x_setX_same v, s.sameButReg_setX r v⟩

/-- Settles O44: the ALU is the arithmetic of `BitVec 32`, which takes either reading of its operands. -/
theorem aluWrapsModulo : Obligations.AluWrapsModulo := by
  intro a b
  refine ⟨toNat_aluAdd a b, toNat_aluSub a b, ?_, ?_⟩ <;> apply BitVec.eq_of_toInt_eq
  · rw [BitVec.toInt_ofInt, aluAdd, BitVec.toInt_add]
  · rw [BitVec.toInt_ofInt, aluSub, BitVec.toInt_sub]

/-- Settles O52: a word of `sub`'s row decodes to it; its meaning is a write of the ALU's difference to
`x[rd]`. -/
theorem subSubtractsRegisters : Obligations.SubSubtractsRegisters := by
  refine ⟨fun raw h => decode_sub h, fun rd rs1 rs2 s => ?_⟩
  have hresult := s.setX_result rd (aluSub (s.x rs1) (s.x rs2))
  rw [toNat_aluSub] at hresult
  exact ⟨_, exec_sub rd rs1 rs2 s, hresult⟩

/-! ## Loads -/

/-- Settles O45: a load of one byte, widened with its sign. -/
theorem lbLoadsSignExtendedByte : Obligations.LbLoadsSignExtendedByte := by
  refine ⟨fun raw h => decode_of_load_row h (by decide) (by decide), ?_⟩
  rintro rd rs1 imm _ s rfl
  exact State.loadTo_regions (width := 8) rfl (widenSigned_readBytes_one _ _) rfl

/-- Settles O46: a load of two bytes, widened with their sign. -/
theorem lhLoadsSignExtendedHalfword : Obligations.LhLoadsSignExtendedHalfword := by
  refine ⟨fun raw h => decode_of_load_row h (by decide) (by decide), ?_⟩
  rintro rd rs1 imm _ s rfl
  exact State.loadTo_regions (width := 16) rfl (widenSigned_readBytes_two _ _) rfl

/-- Settles O47: a load of four bytes. -/
theorem lwLoadsWord : Obligations.LwLoadsWord := by
  refine ⟨fun raw h => decode_of_load_row h (by decide) (by decide), ?_⟩
  rintro rd rs1 imm _ s rfl
  exact State.loadTo_regions (width := 32) rfl (ofNat_readBytes_four _ _) rfl

/-- Settles O48: a load of one byte, widened with zeros. -/
theorem lbuLoadsZeroExtendedByte : Obligations.LbuLoadsZeroExtendedByte := by
  refine ⟨fun raw h => decode_of_load_row h (by decide) (by decide), ?_⟩
  rintro rd rs1 imm _ s rfl
  exact State.loadTo_regions (width := 8) rfl (widenZero_readBytes_one _ _) rfl

/-- Settles O49: a load of two bytes, widened with zeros. -/
theorem lhuLoadsZeroExtendedHalfword : Obligations.LhuLoadsZeroExtendedHalfword := by
  refine ⟨fun raw h => decode_of_load_row h (by decide) (by decide), ?_⟩
  rintro rd rs1 imm _ s rfl
  exact State.loadTo_regions (width := 16) rfl (widenZero_readBytes_two _ _) rfl

/-! ## Stores -/

/-- Settles O53: a store of one byte, byte 0 of `x[rs2]`. -/
theorem sbStoresLowByte : Obligations.SbStoresLowByte := by
  refine ⟨fun raw h => decode_of_store_row h (by decide) (by decide), ?_⟩
  rintro rs1 rs2 imm _ s rfl
  obtain ⟨hin, hfaults⟩ := State.storeFrom_regions (s := s) (addr := s.x rs1 + imm) (width := 8)
    (v := s.x rs2) rfl rfl
  refine ⟨fun h => ?_, hfaults⟩
  obtain ⟨t, ht, hframe, hbytes⟩ := hin h
  exact ⟨t, ht, hframe, fun hs => hbytes hs 0 Nat.one_pos⟩

/-- Settles O54: a store of the two low bytes of `x[rs2]`. -/
theorem shStoresLowHalfword : Obligations.ShStoresLowHalfword := by
  refine ⟨fun raw h => decode_of_store_row h (by decide) (by decide), ?_⟩
  rintro rs1 rs2 imm _ s rfl
  exact State.storeFrom_regions (width := 16) rfl rfl

/-- Settles O55: a store of the four bytes of `x[rs2]`. -/
theorem swStoresWord : Obligations.SwStoresWord := by
  refine ⟨fun raw h => decode_of_store_row h (by decide) (by decide), ?_⟩
  rintro rs1 rs2 imm _ s rfl
  exact State.storeFrom_regions (width := 32) rfl rfl

/-! ## A store and the fetch -/

/-- Settles O56: the fetch reads the four bytes at the pc, each stored where the store covers it and as
before elsewhere. -/
theorem storedBytesSeenByNextFetch : Obligations.StoredBytesSeenByNextFetch := by
  rintro s t i rs1 rs2 imm _ n hs hi rfl hin hpc hexec
  rw [exec_store_of_inRam hi hin] at hexec
  cases hexec
  obtain ⟨raw, hfetch, hraw⟩ := State.fetch_bytes
    (hpc.stored (addr := s.x rs1 + imm) (n := n) (s.x rs2).toNat)
  refine ⟨raw, hfetch, fun k hk => ?_⟩
  rw [hraw k hk, State.stored_pc]
  split_ifs with hcovered
  · obtain ⟨hlo, hhi⟩ := hcovered
    rw [← ofNat_div_eq_extractLsb', ← State.read_stored_inside (n := n) hs (s.x rs1 + imm) _ (by omega),
      Nat.add_sub_cancel' hlo]
  · exact State.read_stored_outside (by omega)

/-- Settles O38: `sw` at the pc leaves its word where the next fetch reads it, and the status is still
`Running`. -/
theorem storeSeenByNextFetch : Obligations.StoreSeenByNextFetch := by
  intro s t rs1 rs2 imm i hs hrun haddr hin hdecode hexec
  rw [exec_store_of_inRam (.inr (.inr ⟨rfl, rfl⟩)) (by rwa [haddr]), haddr] at hexec
  cases hexec
  have hfetch := State.fetch_stored hs hin (s.x rs2)
  exact ⟨hfetch, step_ok hrun hfetch hdecode⟩

end Sys2Proof
end

section
/-! PROOFS. The step (spec/40_fetch_cycle.md, spec/60_exceptions.md): the fetched word, the stop of each kind
of word, the three outcomes of a meaning, and the table of stops. -/

namespace Sys2Proof.Machine

section Stops

variable {s t : State} {raw : Word} {i : Instr}

/-! ## The fetched word (R53, R103) -/

theorem State.fetch_of_inRam (h : s.InRam s.pc 4) :
    s.fetch = .ok (s.mem.read (s.pc.toNat + 3) ++ s.mem.read (s.pc.toNat + 2) ++
      s.mem.read (s.pc.toNat + 1) ++ s.mem.read s.pc.toNat : Word) := by
  rw [State.fetch_ok h.accessFault, ofNat_readBytes_four]

theorem step_of_fetch_fault {kind : FaultKind} (hrun : s.status = .running)
    (h : accessFault s.ramBase s.pc 4 = some kind) :
    step s = .next { s with status := .faulted .fetch kind } :=
  step_fetch_error hrun (State.fetch_error h)

/-! ## Words that stop the machine (R162 to R164) -/

theorem decodeFormat_opcodeZero_of_decode {rest : BitVec 25} (h : decode raw = .ok (.opcodeZero rest)) :
    decodeFormat raw = .opcodeZero := by
  rcases decode_ok_cases h with ⟨hzero, -⟩ | ⟨f, -, hselect⟩
  · exact hzero
  · exact absurd rfl (select_ne_opcodeZero hselect rest)

theorem exec_opcodeZero (rest : BitVec 25) (s : State) :
    exec (.opcodeZero rest) s = .next { s with status := .halted } := rfl

theorem step_of_opcodeZero (hrun : s.status = .running) (hf : s.fetch = .ok raw)
    (ho : opcodeOf raw = 0x00#7) : step s = .next { s with pc := s.pc + 4#32, status := .halted } := by
  rw [step_ok hrun hf (decode_zero ho), exec_opcodeZero]
  rfl

theorem step_of_unsupported (hrun : s.status = .running) (hf : s.fetch = .ok raw)
    (ho : UnsupportedOpcode raw) :
    step s = .next { s with pc := s.pc + 4#32, status := .faulted .decode (.illegalOpcode raw) } :=
  step_reject hrun hf (decode_of_unsupported ho)

theorem step_of_illegalInstruction (hrun : s.status = .running) (hf : s.fetch = .ok raw)
    (hd : decode raw = .error (.illegalInstruction raw)) :
    step s = .next { s with pc := s.pc + 4#32, status := .faulted .execute (.illegalInstruction raw) } :=
  step_reject hrun hf hd

/-! ## The three outcomes of a meaning (R106, R107) -/

/-- A meaning halts, faults in its data access, or completes with the status as it was. -/
theorem Effect.outcome (h : Effect i s t) :
    (∃ rest, i = .opcodeZero rest ∧ t = { s with status := .halted }) ∨
    (∃ addr n kind, dataAccess s i = some (addr, n) ∧ accessFault s.ramBase addr n = some kind ∧
      t = { s with status := .faulted .execute kind }) ∨
    ((∀ rest, i ≠ .opcodeZero rest) ∧
      (∀ addr n, dataAccess s i = some (addr, n) → accessFault s.ramBase addr n = none) ∧
      t.status = s.status) := by
  cases h with
  | halt hi => exact .inl ⟨_, hi, rfl⟩
  | stop ha h => exact .inr (.inl ⟨_, _, _, ha, h, rfl⟩)
  | reg v hd ha =>
    refine .inr (.inr ⟨?_, ha, State.setX_status _ _ _⟩)
    rintro rest rfl
    cases hd
  | bytes ha hst h =>
    refine .inr (.inr ⟨?_, fun addr n ha' => ?_, rfl⟩)
    · rintro rest rfl
      cases hst
    · rw [ha] at ha'
      cases ha'
      exact h

theorem Effect.status_of_fault {addr : Word} {n : Nat} {kind : FaultKind} (h : Effect i s t)
    (ha : dataAccess s i = some (addr, n)) (hfault : accessFault s.ramBase addr n = some kind) :
    t.status = .faulted .execute kind := by
  rcases h.outcome with ⟨rest, rfl, -⟩ | ⟨addr', n', kind', ha', hfault', rfl⟩ | ⟨-, hok, -⟩
  · cases ha
  · rw [ha] at ha'
    cases ha'
    rw [hfault] at hfault'
    cases hfault'
    rfl
  · rw [hok addr n ha] at hfault
    cases hfault

theorem Effect.status_of_no_fault (h : Effect i s t) (hi : ∀ rest, i ≠ .opcodeZero rest)
    (hok : ∀ addr n, dataAccess s i = some (addr, n) → accessFault s.ramBase addr n = none) :
    t.status = s.status := by
  rcases h.outcome with ⟨rest, hzero, -⟩ | ⟨addr, n, kind, ha, hfault, -⟩ | ⟨-, -, hstatus⟩
  · exact absurd hzero (hi rest)
  · rw [hok addr n ha] at hfault
    cases hfault
  · exact hstatus

/-! ## What a meaning writes (R24, R32) -/

theorem Effect.dest_of_x_ne {r : Reg} (h : Effect i s t) (hne : t.x r ≠ s.x r) : destOf i = some r := by
  cases h with
  | @reg rd v hd ha =>
    by_cases hr : r = rd
    · rw [hr, hd]
    · exact absurd (s.x_setX_other v hr) hne
  | bytes ha hst h => exact absurd rfl hne
  | stop ha h => exact absurd rfl hne
  | halt hi => exact absurd rfl hne

theorem Effect.store_of_read_ne {a : Nat} (h : Effect i s t) (hne : t.mem.read a ≠ s.mem.read a) :
    ∃ addr n, isStore i = true ∧ dataAccess s i = some (addr, n) ∧ s.InRam addr n ∧
      addr.toNat ≤ a ∧ a < addr.toNat + n := by
  cases h with
  | reg v hd ha => exact absurd (by rw [State.setX_mem]) hne
  | @bytes addr bs ha hst h =>
    have hcovered : ¬ (a < addr.toNat ∨ addr.toNat + bs.length ≤ a) := fun houtside =>
      hne (Memory.read_writeBytes_outside houtside)
    exact ⟨addr, bs.length, hst, ha, accessFault_none_inRam h, by omega, by omega⟩
  | stop ha h => exact absurd rfl hne
  | halt hi => exact absurd rfl hne

/-! ## A word placed at the pc (R53, log entry 3) -/

theorem State.withFetchWord_of_inRam (h : s.InRam s.pc 4) (nbits w : Nat) :
    s.withFetchWord nbits w = s.stored s.pc 4 (w % 2 ^ nbits) := by
  rw [State.withFetchWord, State.placeAtPc, length_leBytes, h.accessFault]
  rfl

theorem State.fetch_withFetchWord (hs : s.memOk = true) (h : s.InRam s.pc 4) (nbits w : Nat) :
    (s.withFetchWord nbits w).fetch = .ok (BitVec.ofNat 32 (leValue (leBytes 4 (w % 2 ^ nbits)))) := by
  rw [State.withFetchWord_of_inRam h, leValue_leBytes_two_pow]
  exact State.fetch_of_memRead (State.memRead_stored_whole hs h _)

theorem decode_of_decodeTableWord {nbits w : Nat} (h : decodeTableWord nbits w = some i) :
    decode (BitVec.ofNat 32 (leValue (leBytes 4 (w % 2 ^ nbits)))) = .ok i := by
  unfold decodeTableWord at h
  cases hd : decode (BitVec.ofNat 32 (leValue (leBytes 4 (w % 2 ^ nbits)))) with
  | ok j => rw [hd] at h; exact congrArg Except.ok (Option.some.inj h)
  | error j => rw [hd] at h; cases h

end Stops

end Sys2Proof.Machine

namespace Sys2Proof

open Machine

/-! ## The table of stops (R108) and what follows from it -/

/-- Settles O16: a step is a fetch fault, a rejected word of one of two kinds, or a meaning with one of its
three outcomes. -/
theorem stepOutcomeTable : Obligations.StepOutcomeTable := by
  intro s t h
  obtain ⟨hrun, ⟨kind, -, hf, rfl⟩ | ⟨raw, j, -, hf, hd, rfl⟩ | ⟨raw, i, -, hf, hd, hexec, he⟩⟩ :=
    step_cases h
  · exact .inl ⟨kind, hf, rfl⟩
  · rcases decode_error_cases hd with ⟨hillegal, rfl⟩ | ⟨f, hformat, hselect, rfl⟩
    · exact .inr (.inr (.inl ⟨raw, hf, hillegal, rfl⟩))
    · exact .inr (.inr (.inr (.inl ⟨raw, f, hf, hformat, hselect, rfl⟩)))
  · have houtcome := he.outcome
    simp only [dataAccess_advance, State.advance_ramBase, State.advance_status] at houtcome
    rcases houtcome with ⟨rest, rfl, rfl⟩ | ⟨addr, n, kind, ha, hfault, rfl⟩ | ⟨hi, hok, hstatus⟩
    · have hzero := decodeFormat_opcodeZero_of_decode hd
      exact .inr (.inl ⟨raw, hf, hzero, rfl⟩)
    · exact .inr (.inr (.inr (.inr (.inl
        ⟨raw, i, addr, n, kind, hf, hd, ha, accessFault_some_region hfault, rfl⟩))))
    · exact .inr (.inr (.inr (.inr (.inr ⟨raw, i, hf, hd, hi,
        fun addr n ha => accessFault_none_inRam (hok addr n ha), hexec, he.pc, hstatus.trans hrun⟩))))

/-- A stop is a fetch fault with only the status changed, or only the pc advanced and the status changed. -/
theorem stop_cases {s t : State} (h : step s = .next t) (hstop : t.status ≠ .running) :
    (∃ kind, t = { s with status := .faulted .fetch kind }) ∨
      ∃ status, (∀ kind, status ≠ .faulted .fetch kind) ∧
        t = { s with pc := s.pc + 4#32, status := status } := by
  rcases stepOutcomeTable s t h with ⟨kind, -, rfl⟩ | ⟨raw, -, -, rfl⟩ | ⟨raw, -, -, rfl⟩ |
    ⟨raw, f, -, -, -, rfl⟩ | ⟨raw, i, addr, n, kind, -, -, -, -, rfl⟩ | ⟨raw, i, -, -, -, -, -, -, hrun⟩
  · exact .inl ⟨kind, rfl⟩
  · exact .inr ⟨_, by simp, rfl⟩
  · exact .inr ⟨_, by simp, rfl⟩
  · exact .inr ⟨_, by simp, rfl⟩
  · exact .inr ⟨_, by simp, rfl⟩
  · exact absurd hrun hstop

/-- Settles O17: a stop changes no register and no byte in either of its shapes, and a terminal state takes
no step. -/
theorem stopIsPrecise : Obligations.StopIsPrecise := by
  intro s t h hstop
  have hnostep : ∀ u, step t ≠ .next u := fun u hu => hstop (step_cases hu).1
  rcases stop_cases h hstop with ⟨kind, rfl⟩ | ⟨status, hstatus, rfl⟩
  · exact ⟨fun _ => rfl, fun _ => rfl, fun _ _ => rfl, fun hne => absurd rfl (hne kind), hnostep⟩
  · exact ⟨fun _ => rfl, fun _ => rfl, fun kind' he => absurd he (hstatus kind'), fun _ => rfl, hnostep⟩

/-- Settles O14: opcode zero decodes to the sentinel, whose meaning is the halt, and no other row of the table
of stops has the status `Halted`. -/
theorem opcodeZeroHalts : Obligations.OpcodeZeroHalts := by
  refine ⟨exec_opcodeZero, fun s raw hrun hf ho => step_of_opcodeZero hrun hf ho, fun s t h hhalt => ?_,
    fun s hs => step_halted hs⟩
  rcases stepOutcomeTable s t h with ⟨kind, -, rfl⟩ | ⟨raw, hf, hzero, rfl⟩ | ⟨raw, -, -, rfl⟩ |
    ⟨raw, f, -, -, -, rfl⟩ | ⟨raw, i, addr, n, kind, -, -, -, -, rfl⟩ | ⟨raw, i, -, -, -, -, -, -, hrun⟩
  · cases hhalt
  · exact ⟨raw, hf, decodeFormat_opcodeZero_iff.mp hzero⟩
  · cases hhalt
  · cases hhalt
  · cases hhalt
  · rw [hrun] at hhalt
    cases hhalt

/-! ## The fetch and the status -/

/-- Settles O10: the fetch gives the word of the four bytes, and the step is the meaning of what it decodes
to. -/
theorem stepRunsDecodedInstruction : Obligations.StepRunsDecodedInstruction :=
  fun _ _ hrun hin hd => step_ok hrun (State.fetch_of_inRam hin) hd

/-- Settles O11: the check of the fetch decides, and a fault is raised before the pc is advanced. -/
theorem fetchFaultKeepsPc : Obligations.FetchFaultKeepsPc :=
  fun _ hrun => ⟨State.fetch_of_inRam, fun h => step_of_fetch_fault hrun (h.accessFault 4),
    fun h => step_of_fetch_fault hrun h.accessFault⟩

/-- Settles O12: the decoder rejects the word. -/
theorem illegalOpcodeStops : Obligations.IllegalOpcodeStops :=
  fun _ _ hrun hf h0 h1 h2 h3 h4 => step_of_unsupported hrun hf ⟨h0, h1, h2, h3, h4⟩

theorem not_unsupportedOpcode {raw : Word} (h : opcodeOf raw = 0x03#7 ∨ opcodeOf raw = 0x13#7 ∨
    opcodeOf raw = 0x23#7 ∨ opcodeOf raw = 0x33#7) : ¬ UnsupportedOpcode raw := by
  rintro ⟨-, hload, hopImm, hstore, hop⟩
  rcases h with h | h | h | h
  · exact hload h
  · exact hopImm h
  · exact hstore h
  · exact hop h

/-- Settles O13: a supported opcode outside every row has a function code that selects nothing. -/
theorem illegalFunctionCodeStops : Obligations.IllegalFunctionCodeStops :=
  fun _ _ hrun hf ho hrow =>
    step_of_illegalInstruction hrun hf (decode_of_no_row (not_unsupportedOpcode ho) hrow)

/-- Settles O15: the status alone decides whether there is a step. -/
theorem stepTakenOnlyWhenRunning : Obligations.StepTakenOnlyWhenRunning :=
  fun _ => ⟨step_next_of_running, step_halted, fun _ _ => step_faulted⟩

/-! ## Which stop, and in which phase -/

/-- The status after a step that runs a selected instruction is that of its data access. -/
theorem status_of_selected {s t : State} {raw : Word} {f : Format} {i : Instr} (h : step s = .next t)
    (hf : s.fetch = .ok raw) (hformat : decodeFormat raw = .format f) (hselect : select f = some i) :
    (dataAccess s i = none → t.status = .running) ∧
    ∀ addr n, dataAccess s i = some (addr, n) →
      (s.BelowRam addr → t.status = .faulted .execute (.unmapped addr)) ∧
      (s.PastRam addr n → t.status = .faulted .execute (.outOfBounds addr n)) ∧
      (s.InRam addr n → t.status = .running) := by
  have hrun := (step_cases h).1
  rw [step_ok hrun hf (decode_of_select hformat hselect)] at h
  have he := effect_of_exec h
  have hi := select_ne_opcodeZero hselect
  rw [← hrun, ← s.advance_status]
  rw [← dataAccess_advance s i]
  refine ⟨fun hnone => he.status_of_no_fault hi fun addr n ha => ?_, fun addr n ha =>
    ⟨fun hb => he.status_of_fault ha (hb.accessFault n), fun hp => he.status_of_fault ha hp.accessFault,
      fun hin => he.status_of_no_fault hi fun addr' n' ha' => ?_⟩⟩
  · rw [hnone] at ha
    cases ha
  · rw [ha] at ha'
    cases ha'
    exact hin.accessFault

/-- Settles O19: the fetch's check comes first, then the decoder, then the function code, then the check of
the data access. -/
theorem firstStopWins : Obligations.FirstStopWins := by
  intro s t h
  have hrun := (step_cases h).1
  have hstatus : ∀ u, step s = .next u → t.status = u.status := fun u hu => by
    rw [hu] at h
    cases h
    rfl
  refine ⟨fun hb => hstatus _ (step_of_fetch_fault hrun (hb.accessFault 4)),
    fun hp => hstatus _ (step_of_fetch_fault hrun hp.accessFault), fun raw hf => ⟨fun hzero => ?_,
    fun hillegal => ?_, fun f hformat => ⟨fun hnone => ?_, fun i hselect => ?_⟩⟩⟩
  · exact hstatus _ (step_of_opcodeZero hrun hf (decodeFormat_opcodeZero_iff.mp hzero))
  · exact hstatus _ (step_of_unsupported hrun hf (decodeFormat_illegalOpcode_iff.mp hillegal))
  · exact hstatus _ (step_of_illegalInstruction hrun hf (decode_of_select_none hformat hnone))
  · exact status_of_selected h hf hformat hselect

/-- Settles O20: every step records a sound status, and the sound ones have each kind in its phases only. -/
theorem faultKindsOccurInTheirPhases : Obligations.FaultKindsOccurInTheirPhases := by
  intro s t phase kind h hstatus
  have hsound := step_status_sound h
  rw [hstatus] at hsound
  cases kind with
  | illegalOpcode raw => cases phase <;> simp [Status.sound] at hsound ⊢
  | illegalInstruction raw => cases phase <;> simp [Status.sound] at hsound ⊢
  | unmapped addr => cases phase <;> simp [Status.sound] at hsound ⊢
  | outOfBounds addr n => cases phase <;> simp [Status.sound] at hsound ⊢
  | unsupportedSize width => cases phase <;> simp [Status.sound] at hsound

/-! ## What a step writes (R24, R32) -/

/-- Settles O26: only a completed meaning writes a register, and it writes its destination. -/
theorem onlyDestinationRegisterChanges : Obligations.OnlyDestinationRegisterChanges := by
  intro s t r h hne
  obtain ⟨-, ⟨kind, -, -, rfl⟩ | ⟨raw, j, -, -, -, rfl⟩ | ⟨raw, i, -, hf, hd, -, he⟩⟩ := step_cases h
  · exact absurd rfl hne
  · exact absurd (by simp) hne
  · exact ⟨raw, i, hf, hd, he.dest_of_x_ne hne⟩

/-- Settles O27: only a completed store writes memory, within its own access. -/
theorem onlyStoresChangeMemory : Obligations.OnlyStoresChangeMemory := by
  intro s t a h hne
  obtain ⟨-, ⟨kind, -, -, rfl⟩ | ⟨raw, j, -, -, -, rfl⟩ | ⟨raw, i, -, hf, hd, -, he⟩⟩ := step_cases h
  · exact absurd rfl hne
  · exact absurd (by simp) hne
  · obtain ⟨addr, n, hst, ha, hin, hcovered⟩ := he.store_of_read_ne hne
    rw [dataAccess_advance] at ha
    exact ⟨raw, i, addr, n, hf, hd, hst, ha, hin, hcovered⟩

/-- Settles O21: the placed bytes are those the fetch reads, and they decode to the instruction. -/
theorem placedWordRuns : Obligations.PlacedWordRuns := by
  intro s nbits w i hrun hs hin hd
  have hfetch := State.fetch_withFetchWord hs hin nbits w
  have hdecode := decode_of_decodeTableWord hd
  rw [State.withFetchWord_of_inRam hin] at hfetch ⊢
  exact ⟨step_ok hrun hfetch hdecode, s.sameButBytes_stored s.pc 4 _⟩

end Sys2Proof
end

section
/-! PROOFS. Reset, host and state (spec/10_state.md, spec/70_reset_and_hazards.md): the constructed machine, a
host write, what the host's reads determine, and the bound on every run. -/

namespace Sys2Proof.Machine

/-! ## The constructed machine (R190 to R192) -/

theorem toNat_resetVector (base : Config.RamBase) : (Config.resetVector base).toNat = base.val := by
  have hbase := ramBase_le base
  rw [Config.resetVector, BitVec.toNat_ofNat]
  omega

section Construct

variable (base : Config.RamBase) (image : List Byte)

/-- `MEM` after construction is the image, padded with 0. -/
theorem State.memByte_construct {k : Nat} (hk : k < 4096) :
    (State.construct base image).memByte k = image.getD k 0#8 := by
  have hread := Memory.read_ofImage base.val k (image.take Config.memSize)
  rwa [List.getD_eq_getElem?_getD, List.getElem?_take_of_lt hk, ← List.getD_eq_getElem?_getD] at hread

theorem State.construct_take :
    State.construct base (image.take 4096) = State.construct base image := by
  simp only [State.construct, List.take_take, min_self]

theorem State.inRam_construct : (State.construct base image).InRam (Config.resetVector base) 4 := by
  unfold State.InRam Config.memSize
  rw [State.construct_ramBase, toNat_resetVector]
  omega

/-- Every byte of the RAM of the empty image is 0, so the first word fetched is 0. -/
theorem State.fetch_construct_nil : (State.construct base []).fetch = .ok 0#32 := by
  rw [State.fetch_of_inRam (State.inRam_construct base []),
    show (State.construct base []).mem = [] from rfl]
  simp only [Memory.read_nil]
  rfl

end Construct

/-! ## A host write (R199) -/

theorem State.memByte_hostWriteMem {s : State} (hs : s.memOk = true) (k : Fin Config.memSize) (b : Byte) :
    (s.hostWriteMem k b).memByte k.val = b :=
  Memory.read_write_same (State.memOk_iff.mp hs).1 _ b

theorem State.sameButBytes_hostWriteMem (s : State) (k : Fin Config.memSize) (b : Byte) :
    s.SameButBytes (s.hostWriteMem k b) (s.ramBase.val + k.val) 1 :=
  s.sameButBytes_writeBytes (s.ramBase.val + k.val) [b]

/-! ## What the host's reads determine (R20, R198) -/

theorem Memory.read_outside {lo hi a : Nat} {m : Memory} (h : m.within lo hi = true)
    (ha : a < lo ∨ hi ≤ a) : m.read a = Memory.unlisted := by
  induction m with
  | nil => rfl
  | cons c m ih =>
    obtain ⟨k, b⟩ := c
    obtain ⟨hk, hm⟩ := Memory.within_cons.mp h
    rw [Memory.read_cons, if_neg (by omega), ih hm]

/-- A store in order is determined by the 4096 bytes of the RAM. -/
theorem State.mem_eq_of_memByte_eq {s t : State} (hs : s.memOk = true) (ht : t.memOk = true)
    (hbase : t.ramBase = s.ramBase) (h : ∀ k < 4096, t.memByte k = s.memByte k) : t.mem = s.mem := by
  obtain ⟨hswf, hsin⟩ := State.memOk_iff.mp hs
  obtain ⟨htwf, htin⟩ := State.memOk_iff.mp ht
  rw [State.ramEnd, hbase] at htin
  refine Memory.eq_of_read_eq htwf hswf fun a => ?_
  by_cases ha : a < s.ramBase.val ∨ s.ramBase.val + 4096 ≤ a
  · rw [Memory.read_outside htin ha, Memory.read_outside hsin ha]
  · have hbyte := h (a - s.ramBase.val) (by omega)
    rwa [State.memByte, State.memByte, hbase, Nat.add_sub_cancel' (by omega)] at hbyte

theorem State.x_ofNat_succ (s : State) {k : Nat} (hk : k < 31) :
    s.x (BitVec.ofNat 5 (k + 1)) = s.regs[k] := by
  have htoNat : (BitVec.ofNat 5 (k + 1)).toNat = k + 1 := by
    rw [BitVec.toNat_ofNat]
    omega
  have hne : BitVec.ofNat 5 (k + 1) ≠ 0#5 := fun h => by
    rw [h] at htoNat
    cases htoNat
  simp [State.x, hne, htoNat]

theorem State.regs_eq_of_x_eq {s t : State} (h : ∀ r, t.x r = s.x r) : t.regs = s.regs := by
  apply Vector.ext
  intro k hk
  rw [← t.x_ofNat_succ hk, ← s.x_ofNat_succ hk, h]

/-! ## The bound on every run (R109, R195) -/

/-- How many more words can be fetched if every step completes: those from the pc to the end of the RAM. -/
def State.remaining (s : State) : Nat :=
  if accessFault s.ramBase s.pc 4 = none then (s.ramBase.val + 4096 - s.pc.toNat) / 4 else 0

theorem State.remaining_le (s : State) : s.remaining ≤ 1024 := by
  unfold State.remaining
  split_ifs with h
  · have hrange := range_of_accessFault_none h
    omega
  · omega

/-- A step that completes uses up one of the remaining words: the pc does not wrap into the RAM. -/
theorem step_remaining_lt {s t : State} (h : step s = .next t) (hrun : t.status = .running) :
    t.remaining < s.remaining := by
  rcases s.fetch_cases with ⟨kind, ha, -⟩ | ⟨ha, hf⟩
  · rw [step_of_fetch_fault (step_cases h).1 ha] at h
    cases h
    cases hrun
  · have hbase := ramBase_le s.ramBase
    have hrange := range_of_accessFault_none ha
    rw [State.remaining, State.remaining, step_ramBase h, step_pc_of_fetch_ok h hf, if_pos ha]
    split_ifs with ht
    · have htrange := range_of_accessFault_none ht
      rw [BitVec.toNat_add, BitVec.toNat_ofNat] at htrange ⊢
      omega
    · omega

theorem Steps.zero_of_terminal {k : Nat} {s t : State} (h : Steps k s t) (hs : s.Terminal) : k = 0 := by
  cases h with
  | refl => rfl
  | step h _ => exact absurd (step_cases h).1 hs

theorem Steps.le_remaining {k : Nat} {s t : State} (h : Steps k s t) : k ≤ s.remaining + 1 := by
  induction h with
  | refl s => omega
  | @step k s t u h hs ih =>
    by_cases hrun : t.status = .running
    · have hlt := step_remaining_lt h hrun
      omega
    · have hzero := hs.zero_of_terminal hrun
      omega

theorem reaches_terminal {n : Nat} {s : State} (hn : s.remaining < n) (hrun : s.status = .running) :
    ∃ k ≤ n, ∃ t, Steps k s t ∧ t.Terminal := by
  induction n generalizing s with
  | zero => omega
  | succ n ih =>
    obtain ⟨t, h⟩ := step_next_of_running hrun
    by_cases ht : t.status = .running
    · have hlt := step_remaining_lt h ht
      obtain ⟨k, hk, u, hsteps, hu⟩ := ih (by omega) ht
      exact ⟨k + 1, by omega, u, .step h hsteps, hu⟩
    · exact ⟨1, by omega, t, .step h (.refl t), ht⟩

/-! ## The driver (R196) -/

/-- The driver's loop ends in the state. -/
def State.DriverStops (s : State) : Prop := s.Terminal ∨ s.ramEnd ≤ s.pc.toNat

theorem State.driverContinues_eq_true_iff {s : State} : s.driverContinues = true ↔ ¬ s.DriverStops := by
  simp [State.driverContinues, State.DriverStops, State.Terminal]

theorem State.drive_of_stops {s : State} (h : s.DriverStops) (fuel : Nat) : s.drive fuel = s := by
  cases fuel with
  | zero => rfl
  | succ fuel =>
    rw [State.drive, if_neg (fun hc => State.driverContinues_eq_true_iff.mp hc h)]

theorem State.drive_succ {s t : State} (hc : ¬ s.DriverStops) (h : step s = .next t) (fuel : Nat) :
    s.drive (fuel + 1) = t.drive fuel := by
  rw [State.drive, if_pos (State.driverContinues_eq_true_iff.mpr hc), State.hostStep_of_next h]

theorem State.driverStops_drive {fuel : Nat} {s : State} (hfuel : s.remaining < fuel) :
    (s.drive fuel).DriverStops := by
  induction fuel generalizing s with
  | zero => omega
  | succ fuel ih =>
    by_cases hc : s.DriverStops
    · rwa [State.drive_of_stops hc]
    · obtain ⟨t, h⟩ := step_next_of_running (by_contra fun hs => hc (.inl hs))
      rw [State.drive_succ hc h]
      by_cases ht : t.status = .running
      · have hlt := step_remaining_lt h ht
        exact ih (by omega)
      · rw [State.drive_of_stops (.inl ht)]
        exact .inl ht

end Sys2Proof.Machine

namespace Sys2Proof

open Machine

/-- Settles O40: the fields of the constructed state. -/
theorem constructionClearsRegisters : Obligations.ConstructionClearsRegisters :=
  fun base image => ⟨fun r => State.construct_x r base image, toNat_resetVector base, rfl, rfl⟩

/-- Settles O39: the store reads as the image padded with 0, and the word 0 of the empty image halts. -/
theorem imageIsPaddedOrTruncated : Obligations.ImageIsPaddedOrTruncated := by
  intro base image
  refine ⟨fun k b hk hb => ?_, fun k hk hlen => ?_, State.construct_take base image,
    step_of_opcodeZero rfl (State.fetch_construct_nil base) (by decide)⟩
  · have hbyte := State.memByte_construct base image hk
    rw [List.getD_eq_getElem?_getD, hb] at hbyte
    exact ⟨hbyte, hbyte⟩
  · rw [State.memByte_construct base image hk, List.getD_eq_default _ _ hlen]

/-- Settles O41: a host write is a write of one byte of the store. -/
theorem hostWriteSetsOneByte : Obligations.HostWriteSetsOneByte :=
  fun s k b hs => ⟨State.memByte_hostWriteMem hs k b, s.sameButBytes_hostWriteMem k b⟩

/-- Settles O42: the registers' reads determine the register file, and the 4096 bytes determine a store in
order. -/
theorem observationDeterminesState : Obligations.ObservationDeterminesState := by
  intro s t hs ht hbase hregs hpc hstatus hmem
  have hr := State.regs_eq_of_x_eq hregs
  have hm := State.mem_eq_of_memByte_eq hs ht hbase fun k hk => hmem ⟨k, hk⟩
  cases s
  cases t
  cases hbase
  cases hr
  cases hpc
  cases hstatus
  cases hm
  rfl

/-- Settles O28: a completed step uses up one of the at most 1024 words from the pc to the end of the RAM. -/
theorem everyRunStops : Obligations.EveryRunStops := by
  intro s
  have hle := s.remaining_le
  refine ⟨reaches_terminal (by omega), fun k t h => ?_⟩
  have hk := h.le_remaining
  omega

/-- Settles O29: the fuel is more than the words that remain. -/
theorem driverEnds : Obligations.DriverEnds := by
  intro s fuel hfuel
  have hle := s.remaining_le
  exact State.driverStops_drive (by omega)

end Sys2Proof
end
